-- ==== Sys2Proof/Word.lean ====
section
/-! DEFINITION. The fixed-width values the block handles (R53): words, opcodes, codes and records of lanes. -/

namespace Sys2Proof

/-- An instruction word, a lane, STATUS or an encode result: an unsigned 32-bit value (R53, R70).
Bit 0 is the least significant bit (R6). -/
abbrev Word := BitVec 32

/-- An opcode, 0 to 127 (R53, R71). -/
abbrev Opcode := BitVec 7

/-- The 3-bit format-tag operand as a requester spells it: codes 0 to 5, with 6 and 7 reserved (R83). -/
abbrev TagCode := BitVec 3

/-- The 3-bit command code (R81). -/
abbrev CmdCode := BitVec 3

/-- A record: 32 lanes of 32 bits, indexed by field position (R5, R53). -/
abbrev Lanes := Vector Word 32

end Sys2Proof
end

