-- ==== Sys2Proof/Syntax.lean ====
section
/-! DEFINITION. The commands and instruction-word rows of spec/opcode_table.json, one constructor each,
and the request form in which a requester presents them to the block (R80, R82). -/

namespace Sys2Proof

/-- A format tag: R, I, S, B, U or J (R2, R83). -/
inductive Tag where
  | R | I | S | B | U | J
deriving DecidableEq, Repr

/-- One field of a schema: a label and a width in bits (R100). The width is any natural number here:
validation, not the type, bounds it (R82, R103). -/
structure FieldSpec where
  name  : String
  width : Nat
deriving DecidableEq, Repr

/-- An ordered field list, entry 0 least significant (R101). -/
abbrev Schema := List FieldSpec

/-- One constructor per row of spec/opcode_table.json: the eight rows of the command space (R81, R82),
the twelve named rows of the word space with the fields the row's format gives them (R73, R74, R77), and
the row for every other word (R78). -/
inductive Instr where
  /-- CMD 0 (R105). -/
  | defineFormat (tag : TagCode) (fields : List FieldSpec)
  /-- CMD 1 (R160). -/
  | registerOpcode (opcode : Opcode) (tag : TagCode)
  /-- CMD 2, SEAL (R161). -/
  | sealTable
  /-- CMD 3 (R162). -/
  | dispatch (word : Word)
  /-- CMD 4 (R136). -/
  | decode (word : Word) (tag : TagCode)
  /-- CMD 5 (R137). -/
  | encode (tag : TagCode) (lanes : Lanes)
  /-- CMD 6 (R163). -/
  | readStatus
  /-- CMD 7, reserved (R81, R202). -/
  | reservedCmd
  /-- A word with opcode 0b0111100, J format (CFG_TEST, R77). -/
  | jWord (rd : BitVec 5) (imm0 : BitVec 8) (imm1 : BitVec 1) (imm2 : BitVec 10) (imm3 : BitVec 1)
  /-- A word with opcode 0x03, I format. -/
  | load (rd : BitVec 5) (funct3 : BitVec 3) (rs1 : BitVec 5) (imm0 : BitVec 12)
  /-- A word with opcode 0x0F, I format. -/
  | miscMem (rd : BitVec 5) (funct3 : BitVec 3) (rs1 : BitVec 5) (imm0 : BitVec 12)
  /-- A word with opcode 0x13, I format. -/
  | opImm (rd : BitVec 5) (funct3 : BitVec 3) (rs1 : BitVec 5) (imm0 : BitVec 12)
  /-- A word with opcode 0x17, U format. -/
  | auipc (rd : BitVec 5) (imm0 : BitVec 20)
  /-- A word with opcode 0x23, S format. -/
  | store (imm0 : BitVec 5) (funct3 : BitVec 3) (rs1 : BitVec 5) (rs2 : BitVec 5) (imm1 : BitVec 7)
  /-- A word with opcode 0x33, R format. -/
  | op (rd : BitVec 5) (funct3 : BitVec 3) (rs1 : BitVec 5) (rs2 : BitVec 5) (funct7 : BitVec 7)
  /-- A word with opcode 0x37, U format. -/
  | lui (rd : BitVec 5) (imm0 : BitVec 20)
  /-- A word with opcode 0x63, B format. -/
  | branch (imm0 : BitVec 1) (imm1 : BitVec 4) (funct3 : BitVec 3) (rs1 : BitVec 5) (rs2 : BitVec 5)
      (imm2 : BitVec 6) (imm3 : BitVec 1)
  /-- A word with opcode 0x67, I format. -/
  | jalr (rd : BitVec 5) (funct3 : BitVec 3) (rs1 : BitVec 5) (imm0 : BitVec 12)
  /-- A word with opcode 0x6F, J format. -/
  | jal (rd : BitVec 5) (imm0 : BitVec 8) (imm1 : BitVec 1) (imm2 : BitVec 10) (imm3 : BitVec 1)
  /-- A word with opcode 0x73, I format. -/
  | system (rd : BitVec 5) (funct3 : BitVec 3) (rs1 : BitVec 5) (imm0 : BitVec 12)
  /-- A word with any other opcode: the opcode and the 25 bits above it (R78). -/
  | unrecognized (opcode : Opcode) (upper : BitVec 25)
deriving DecidableEq, Repr

/-- The operands of one command request (R82). A command reads only the operands R82 gives it.
DESIGN CHOICE (log 1): one bundle with every operand in it, those a command lacks being ignored. Safe. -/
structure Operands where
  tag    : TagCode := 0
  opcode : Opcode := 0
  word   : Word := 0
  lanes  : Lanes := Vector.replicate 32 0
  fields : List FieldSpec := []
deriving DecidableEq, Repr

/-- What a requester presents: a command request `(CMD, operands)` (R80), or an instruction word of the
opcode table's word space, the block's "only raw-data interface" (R50).
DESIGN CHOICE (log 2): the latter is a request to dispatch that word. Safe. -/
inductive Request where
  | command (cmd : CmdCode) (operands : Operands)
  | word (w : Word)
deriving DecidableEq, Repr

/-- The two spaces of spec/opcode_table.json. -/
inductive Space where
  | command | word
deriving DecidableEq, Repr

/-- The space of an instruction's opcode-table row. -/
def Instr.space : Instr → Space
  | .defineFormat _ _ => .command
  | .registerOpcode _ _ => .command
  | .sealTable => .command
  | .dispatch _ => .command
  | .decode _ _ => .command
  | .encode _ _ => .command
  | .readStatus => .command
  | .reservedCmd => .command
  | .jWord _ _ _ _ _ => .word
  | .load _ _ _ _ => .word
  | .miscMem _ _ _ _ => .word
  | .opImm _ _ _ _ => .word
  | .auipc _ _ => .word
  | .store _ _ _ _ _ => .word
  | .op _ _ _ _ _ => .word
  | .lui _ _ => .word
  | .branch _ _ _ _ _ _ _ => .word
  | .jalr _ _ _ _ => .word
  | .jal _ _ _ _ _ => .word
  | .system _ _ _ _ => .word
  | .unrecognized _ _ => .word

/-- The space in which a request is presented. -/
def Request.space : Request → Space
  | .command _ _ => .command
  | .word _ => .word

end Sys2Proof
end

