-- ==== Sys2Proof/Config.lean ====
section
/-! DEFINITION. The parameters of R5: the fixed numbers, the parameter SCHEMAS with its defaults (R73,
R74), the parameter BUILD_PROGRAM with the two reference configurations (R77), and WORD_BYTE_ORDER. None
of the reference contents is built into the block: State.reset holds none of them. -/

namespace Sys2Proof

/-- WORD_BITS (R5). -/
def Config.wordBits : Nat := 32
/-- OPCODE_BITS (R5). -/
def Config.opcodeBits : Nat := 7
/-- N_FORMATS (R5). -/
def Config.nFormats : Nat := 6
/-- TABLE_ENTRIES (R5). -/
def Config.tableEntries : Nat := 128
/-- MAX_FIELDS (R5). -/
def Config.maxFields : Nat := 32
/-- N_LANES (R5). -/
def Config.nLanes : Nat := 32

/-- The formats in tag-code order (R83). -/
def Config.allTags : List Tag := [.R, .I, .S, .B, .U, .J]

/-- The J field list, the only one the source gives: normative, no parameter (R73). -/
def Config.schemaJ : Schema :=
  [⟨"opcode", 7⟩, ⟨"rd", 5⟩, ⟨"imm0", 8⟩, ⟨"imm1", 1⟩, ⟨"imm2", 10⟩, ⟨"imm3", 1⟩]

/-- The parameter SCHEMAS (R5, R74): the field lists of the five formats the source leaves open. -/
structure Config.Schemas where
  r : Schema
  i : Schema
  s : Schema
  b : Schema
  u : Schema
deriving DecidableEq, Repr

/-- The field list of a format under a choice of SCHEMAS; J is fixed (R73). -/
def Config.Schemas.fields (p : Config.Schemas) : Tag → Schema
  | .R => p.r
  | .I => p.i
  | .S => p.s
  | .B => p.b
  | .U => p.u
  | .J => Config.schemaJ

/-- The default SCHEMAS of R74.
PRESUMED by the spec itself (G1, D4; log 8): they need not be the repository's. Unsafe where a claim rests on them. -/
def Config.defaultSchemas : Config.Schemas where
  r := [⟨"opcode", 7⟩, ⟨"rd", 5⟩, ⟨"funct3", 3⟩, ⟨"rs1", 5⟩, ⟨"rs2", 5⟩, ⟨"funct7", 7⟩]
  i := [⟨"opcode", 7⟩, ⟨"rd", 5⟩, ⟨"funct3", 3⟩, ⟨"rs1", 5⟩, ⟨"imm0", 12⟩]
  s := [⟨"opcode", 7⟩, ⟨"imm0", 5⟩, ⟨"funct3", 3⟩, ⟨"rs1", 5⟩, ⟨"rs2", 5⟩, ⟨"imm1", 7⟩]
  b := [⟨"opcode", 7⟩, ⟨"imm0", 1⟩, ⟨"imm1", 4⟩, ⟨"funct3", 3⟩, ⟨"rs1", 5⟩, ⟨"rs2", 5⟩, ⟨"imm2", 6⟩,
    ⟨"imm3", 1⟩]
  u := [⟨"opcode", 7⟩, ⟨"rd", 5⟩, ⟨"imm0", 20⟩]

/-- CFG_TEST (R77): the one opcode entry of the source's own test. -/
def Config.cfgTest : List (Opcode × Tag) := [(0x3C, .J)]

/-- CFG_RV32I (R77): the spec's non-normative reference entries. -/
def Config.cfgRV32I : List (Opcode × Tag) :=
  [(0x03, .I), (0x0F, .I), (0x13, .I), (0x17, .U), (0x23, .S), (0x33, .R), (0x37, .U), (0x63, .B),
    (0x67, .I), (0x6F, .J), (0x73, .I)]

/-- The opcodes that a row of the opcode table's word space names. -/
def Config.rowOpcodes : List Opcode := (Config.cfgTest ++ Config.cfgRV32I).map Prod.fst

/-- WORD_BYTE_ORDER (R5, R51): how an agent OUTSIDE the block assembles a word from a program binary.
It stays a parameter; no definition of the block reads it. -/
inductive Config.ByteOrder where
  | little | big
deriving DecidableEq, Repr

end Sys2Proof
end

