-- ==== Sys2Proof/WellFormed.lean ====
section
/-! DEFINITION. Which instructions the encodings can spell. Every operand's width stands in its type, so one
check is left: the row for unnamed words may not hold an opcode that another row names. -/

namespace Sys2Proof

/-- Whether some request spells this instruction (R82, R77, R78). Tag codes 6 and 7 can be spelled: the
block answers them with a fault (R83). Field lists of any length and any widths can be spelled (R82). -/
def Instr.wellFormed : Instr → Bool
  | .defineFormat _ _ => true
  | .registerOpcode _ _ => true
  | .sealTable => true
  | .dispatch _ => true
  | .decode _ _ => true
  | .encode _ _ => true
  | .readStatus => true
  | .reservedCmd => true
  | .jWord _ _ _ _ _ => true
  | .load _ _ _ _ => true
  | .miscMem _ _ _ _ => true
  | .opImm _ _ _ _ => true
  | .auipc _ _ => true
  | .store _ _ _ _ _ => true
  | .op _ _ _ _ _ => true
  | .lui _ _ => true
  | .branch _ _ _ _ _ _ _ => true
  | .jalr _ _ _ _ => true
  | .jal _ _ _ _ _ => true
  | .system _ _ _ _ => true
  | .unrecognized opcode _ => !Config.rowOpcodes.contains opcode

end Sys2Proof
end

