-- ==== Sys2Proof/Decode.lean ====
section
/-! DEFINITION. From requests to instructions and back: the tag codes (R83), the command codes (R81), the word
layouts of the six formats (R72 to R74), the decoder, which is total (R87), and the encoder. -/

namespace Sys2Proof

/-! ## Codes -/

/-- The code of a format tag (R83). -/
def Tag.code : Tag → TagCode
  | .R => 0
  | .I => 1
  | .S => 2
  | .B => 3
  | .U => 4
  | .J => 5

/-- The format a tag operand names; codes 6 and 7 name none (R83). -/
def Tag.ofCode? (c : TagCode) : Option Tag :=
  if c = 0 then some .R
  else if c = 1 then some .I
  else if c = 2 then some .S
  else if c = 3 then some .B
  else if c = 4 then some .U
  else if c = 5 then some .J
  else none

/-- The opcode of a word: its least significant 7 bits, `w[6:0]`, in every format (R71). -/
def opcodeOf (w : Word) : Opcode := w.extractLsb' 0 7

/-! ## Word layouts: the first field lowest, no gaps (R72) -/

/-- R format (R74). -/
def wordR (opcode : Opcode) (rd : BitVec 5) (funct3 : BitVec 3) (rs1 rs2 : BitVec 5) (funct7 : BitVec 7) : Word :=
  funct7 ++ rs2 ++ rs1 ++ funct3 ++ rd ++ opcode

/-- I format (R74). -/
def wordI (opcode : Opcode) (rd : BitVec 5) (funct3 : BitVec 3) (rs1 : BitVec 5) (imm0 : BitVec 12) : Word :=
  imm0 ++ rs1 ++ funct3 ++ rd ++ opcode

/-- S format (R74). -/
def wordS (opcode : Opcode) (imm0 : BitVec 5) (funct3 : BitVec 3) (rs1 rs2 : BitVec 5) (imm1 : BitVec 7) : Word :=
  imm1 ++ rs2 ++ rs1 ++ funct3 ++ imm0 ++ opcode

/-- B format (R74). -/
def wordB (opcode : Opcode) (imm0 : BitVec 1) (imm1 : BitVec 4) (funct3 : BitVec 3) (rs1 rs2 : BitVec 5)
    (imm2 : BitVec 6) (imm3 : BitVec 1) : Word :=
  imm3 ++ imm2 ++ rs2 ++ rs1 ++ funct3 ++ imm1 ++ imm0 ++ opcode

/-- U format (R74). -/
def wordU (opcode : Opcode) (rd : BitVec 5) (imm0 : BitVec 20) : Word :=
  imm0 ++ rd ++ opcode

/-- J format (R73). -/
def wordJ (opcode : Opcode) (rd : BitVec 5) (imm0 : BitVec 8) (imm1 : BitVec 1) (imm2 : BitVec 10)
    (imm3 : BitVec 1) : Word :=
  imm3 ++ imm2 ++ imm1 ++ imm0 ++ rd ++ opcode

/-- A word none of the rows names: its opcode and the bits above it. -/
def wordOther (opcode : Opcode) (upper : BitVec 25) : Word :=
  upper ++ opcode

/-! ## The decoder -/

/-- The opcode-table row of a word, with the row's fields at the bit positions of its format (R73, R74).
DESIGN CHOICE (log 3): the rows of both reference configurations are named at once. Which format the BLOCK
uses for the word is the state's opcode table alone (R77). Safe. -/
def rowOfWord (w : Word) : Instr :=
  if opcodeOf w = 0x3C then
    .jWord (w.extractLsb' 7 5) (w.extractLsb' 12 8) (w.extractLsb' 20 1) (w.extractLsb' 21 10) (w.extractLsb' 31 1)
  else if opcodeOf w = 0x03 then
    .load (w.extractLsb' 7 5) (w.extractLsb' 12 3) (w.extractLsb' 15 5) (w.extractLsb' 20 12)
  else if opcodeOf w = 0x0F then
    .miscMem (w.extractLsb' 7 5) (w.extractLsb' 12 3) (w.extractLsb' 15 5) (w.extractLsb' 20 12)
  else if opcodeOf w = 0x13 then
    .opImm (w.extractLsb' 7 5) (w.extractLsb' 12 3) (w.extractLsb' 15 5) (w.extractLsb' 20 12)
  else if opcodeOf w = 0x17 then
    .auipc (w.extractLsb' 7 5) (w.extractLsb' 12 20)
  else if opcodeOf w = 0x23 then
    .store (w.extractLsb' 7 5) (w.extractLsb' 12 3) (w.extractLsb' 15 5) (w.extractLsb' 20 5) (w.extractLsb' 25 7)
  else if opcodeOf w = 0x33 then
    .op (w.extractLsb' 7 5) (w.extractLsb' 12 3) (w.extractLsb' 15 5) (w.extractLsb' 20 5) (w.extractLsb' 25 7)
  else if opcodeOf w = 0x37 then
    .lui (w.extractLsb' 7 5) (w.extractLsb' 12 20)
  else if opcodeOf w = 0x63 then
    .branch (w.extractLsb' 7 1) (w.extractLsb' 8 4) (w.extractLsb' 12 3) (w.extractLsb' 15 5) (w.extractLsb' 20 5)
      (w.extractLsb' 25 6) (w.extractLsb' 31 1)
  else if opcodeOf w = 0x67 then
    .jalr (w.extractLsb' 7 5) (w.extractLsb' 12 3) (w.extractLsb' 15 5) (w.extractLsb' 20 12)
  else if opcodeOf w = 0x6F then
    .jal (w.extractLsb' 7 5) (w.extractLsb' 12 8) (w.extractLsb' 20 1) (w.extractLsb' 21 10) (w.extractLsb' 31 1)
  else if opcodeOf w = 0x73 then
    .system (w.extractLsb' 7 5) (w.extractLsb' 12 3) (w.extractLsb' 15 5) (w.extractLsb' 20 12)
  else
    .unrecognized (opcodeOf w) (w.extractLsb' 7 25)

/-- The command a code selects, with the operands R82 gives it (R81, R87). -/
def commandOf (cmd : CmdCode) (p : Operands) : Instr :=
  if cmd = 0 then .defineFormat p.tag p.fields
  else if cmd = 1 then .registerOpcode p.opcode p.tag
  else if cmd = 2 then .sealTable
  else if cmd = 3 then .dispatch p.word
  else if cmd = 4 then .decode p.word p.tag
  else if cmd = 5 then .encode p.tag p.lanes
  else if cmd = 6 then .readStatus
  else .reservedCmd

/-- The decoder. "Command decoding is total": no request is rejected (R87). -/
def decode : Request → Instr
  | .command cmd p => commandOf cmd p
  | .word w => rowOfWord w

/-! ## The encoder -/

/-- The request that spells an instruction: CMD and operands (R81, R82), or the word of its layout. -/
def encode : Instr → Request
  | .defineFormat tag fields => .command 0 { tag := tag, fields := fields }
  | .registerOpcode opcode tag => .command 1 { opcode := opcode, tag := tag }
  | .sealTable => .command 2 {}
  | .dispatch word => .command 3 { word := word }
  | .decode word tag => .command 4 { word := word, tag := tag }
  | .encode tag lanes => .command 5 { tag := tag, lanes := lanes }
  | .readStatus => .command 6 {}
  | .reservedCmd => .command 7 {}
  | .jWord rd imm0 imm1 imm2 imm3 => .word (wordJ 0x3C rd imm0 imm1 imm2 imm3)
  | .load rd funct3 rs1 imm0 => .word (wordI 0x03 rd funct3 rs1 imm0)
  | .miscMem rd funct3 rs1 imm0 => .word (wordI 0x0F rd funct3 rs1 imm0)
  | .opImm rd funct3 rs1 imm0 => .word (wordI 0x13 rd funct3 rs1 imm0)
  | .auipc rd imm0 => .word (wordU 0x17 rd imm0)
  | .store imm0 funct3 rs1 rs2 imm1 => .word (wordS 0x23 imm0 funct3 rs1 rs2 imm1)
  | .op rd funct3 rs1 rs2 funct7 => .word (wordR 0x33 rd funct3 rs1 rs2 funct7)
  | .lui rd imm0 => .word (wordU 0x37 rd imm0)
  | .branch imm0 imm1 funct3 rs1 rs2 imm2 imm3 => .word (wordB 0x63 imm0 imm1 funct3 rs1 rs2 imm2 imm3)
  | .jalr rd funct3 rs1 imm0 => .word (wordI 0x67 rd funct3 rs1 imm0)
  | .jal rd imm0 imm1 imm2 imm3 => .word (wordJ 0x6F rd imm0 imm1 imm2 imm3)
  | .system rd funct3 rs1 imm0 => .word (wordI 0x73 rd funct3 rs1 imm0)
  | .unrecognized opcode upper => .word (wordOther opcode upper)

/-! ## Words assembled outside the block, and the table's numbering -/

/-- The 32-bit value an agent outside the block assembles from four bytes of a program binary, the first
at the lowest address, under a choice of WORD_BYTE_ORDER (R51). -/
def wordOfBytes (order : Config.ByteOrder) (b0 b1 b2 b3 : BitVec 8) : Word :=
  match order with
  | .little => b3 ++ b2 ++ b1 ++ b0
  | .big => b0 ++ b1 ++ b2 ++ b3

/-- Why a string of bytes is no instruction word. -/
inductive DecodeError where
  /-- An instruction is exactly one 32-bit word (R79). -/
  | notOneWord (length : Nat)
deriving DecidableEq, Repr

/-- The row of a word given as bytes: total, and by name for every length but 4 (R79). -/
def decodeBytes (order : Config.ByteOrder) : List (BitVec 8) → Except DecodeError Instr
  | [b0, b1, b2, b3] => .ok (decode (.word (wordOfBytes order b0 b1 b2 b3)))
  | bytes => .error (.notOneWord bytes.length)

/-- The request that a number of spec/opcode_table.json stands for. The table numbers two spaces.
DESIGN CHOICE (log 10): a number of at most 8 bits below 8 is a command request (CMD in bits 2 to 0, every
operand zero); every other number of at most 32 bits is a word. Safe. -/
def requestOfTableWord (nbits w : Nat) : Option Request :=
  if nbits = 0 ∨ 32 < nbits ∨ 2 ^ nbits ≤ w then none
  else if nbits ≤ 8 ∧ w < 8 then some (.command (BitVec.ofNat 3 w) {})
  else some (.word (BitVec.ofNat 32 w))

/-- The instruction the decoder reads from a number of spec/opcode_table.json. -/
def decodeTableWord (nbits w : Nat) : Option Instr :=
  (requestOfTableWord nbits w).map decode

end Sys2Proof
end

