-- ==== Sys2Proof/Machine/State.lean ====
section
/-! DEFINITION. The state as plain data: the five elements of the block (R20), the request and response
channel around it (R80, R56), the values they are made of, and reset (R32). -/

namespace Sys2Proof.Machine

/-- The state of the opcode table (R21). -/
inductive Phase where
  | uninit | built
deriving DecidableEq, Repr

/-- The cause of a programming-error fault (R202). The fault is a state of the block, answered to the
requester; it does not end a run. -/
inductive FaultCause where
  /-- A request with CMD = 7. -/
  | illegalCommand
  /-- A tag operand of 6 or 7. -/
  | reservedTag
  /-- DISPATCH while the table is uninitialized. -/
  | dispatchBeforeBuilt
  /-- REGISTER_OPCODE or SEAL once the table is built. -/
  | tableWriteAfterBuilt
  /-- DEFINE_FORMAT of a slot that holds a schema. -/
  | schemaRedefined
  /-- DECODE or ENCODE with an empty slot. -/
  | schemaUndefined
deriving DecidableEq, Repr

/-- The reason of a SCHEMA_ERROR (R85). -/
inductive SchemaReason where
  | empty | zeroWidth | widthSum
deriving DecidableEq, Repr

/-- The reason of a SEAL_REFUSED (R85). -/
inductive SealReason where
  | buildFailed | missingSchema
deriving DecidableEq, Repr

/-- The payload of a SCHEMA_ERROR (R84, R201). -/
structure SchemaError where
  reason   : SchemaReason
  expected : Nat
  actual   : Nat
deriving DecidableEq, Repr

/-- A response and its payload (R84). Codes 9 to 15 are never produced and have no constructor. -/
inductive Response where
  | ok
  | decoded (tag : Tag) (lanes : Lanes)
  | unrecognized (opcode : Opcode)
  | word (w : Word)
  | status (w : Word)
  | schemaError (e : SchemaError)
  | duplicateOpcode (opcode : Opcode) (existing : Tag)
  | sealRefused (reason : SealReason) (tag : TagCode)
  | fault (cause : FaultCause)
deriving DecidableEq, Repr

/-- The schema store: one slot per format tag (R24). -/
structure SchemaStore where
  r : Option Schema
  i : Option Schema
  s : Option Schema
  b : Option Schema
  u : Option Schema
  j : Option Schema
deriving DecidableEq, Repr

/-- One place in the total order of events at the block (R56): a command of some requester, or the reset
event (R240) with the requester, if any, whose command is in progress when it occurs. -/
inductive Slot where
  | serve (requester : Nat)
  | reset (inProgress : Option Nat)
deriving DecidableEq, Repr

/-- The channel between the requesters and the block (R80). The spec counts none of it as state of the
block (R20); it is the model's own form of the outside world (log 4, log 5). -/
structure Channel where
  /-- Requester q's requests not yet performed, in the order it issued them; N_REQ is the length, at least 1
  (R5, R209). -/
  queues    : List (List Request)
  /-- The interleaving still to come; any list is admitted (R56). -/
  schedule  : List Slot
  /-- The requester whose request is performed now or was performed last. -/
  serving   : Nat
  /-- Every response given so far with the requester that received it, oldest first. -/
  responses : List (Nat × Response)
deriving DecidableEq, Repr

/-- The only stop of the model. -/
inductive Fault where
  /-- Raised by DISPATCH and by the rows of the word space when the built table names a format whose slot is
  empty. R162 gives that case no effect and R26 says it cannot arise: no run from reset reaches it, and no
  state that meets Safety.Inv. Safe (log 9). -/
  | entryWithoutSchema
deriving DecidableEq, Repr

/-- Refusals of the model. -/
inductive Refusal where
  /-- Raised by exec for an instruction without a meaning. Every instruction has its meaning, so nothing
  raises it. Safe. -/
  | notModelled (mnemonic : String)
deriving DecidableEq, Repr

/-- The machine: the block's whole state (R20) and the channel around it. -/
structure State where
  phase       : Phase
  buildFailed : Bool
  fault       : Option FaultCause
  schemas     : SchemaStore
  table       : Vector (Option Tag) 128
  chan        : Channel
deriving DecidableEq, Repr

/-- What one instruction or one step can answer. -/
abbrev Result := Host.Outcome State Fault Refusal

/-- Every schema slot `none` (R24, R32). -/
def SchemaStore.reset : SchemaStore := ⟨none, none, none, none, none, none⟩

/-- The channel of N_REQ requesters, at least one (R5), with no request and no response.
DESIGN CHOICE (log 11): what stands on the channel after reset is not the block's. -/
def Channel.resetFor (nReq : Nat) (_atLeastOne : 1 ≤ nReq) : Channel := ⟨List.replicate nReq [], [], 0, []⟩

/-- The machine after reset, R32, with N_REQ requesters, an open parameter (R5). -/
def State.resetFor (nReq : Nat) (atLeastOne : 1 ≤ nReq) : State where
  phase       := .uninit
  buildFailed := false
  fault       := none
  schemas     := SchemaStore.reset
  table       := Vector.replicate 128 none
  chan        := Channel.resetFor nReq atLeastOne

/-- The machine after reset with one requester, the least number R5 allows.
DESIGN CHOICE (log 4): N_REQ is open, and State.resetFor admits every other number. -/
def State.reset : State := State.resetFor 1 (Nat.le_refl 1)

end Sys2Proof.Machine
end

