-- ==== Sys2Proof/Machine/Ops.lean ====
section
/-! DEFINITION. The named operations every meaning is made of: the two indexed stores (R50), the response that
ends a command (R80), fault entry (R204), the halted check (R205), and reset, the only way back (R206, R240). -/

namespace Sys2Proof.Machine

/-! ## The schema store (R24) -/

/-- `schema[t]`. -/
def SchemaStore.get (m : SchemaStore) : Tag → Option Schema
  | .R => m.r
  | .I => m.i
  | .S => m.s
  | .B => m.b
  | .U => m.u
  | .J => m.j

/-- `schema[t] <- some fields`. -/
def SchemaStore.put (m : SchemaStore) (t : Tag) (fields : Schema) : SchemaStore :=
  match t with
  | .R => { m with r := some fields }
  | .I => { m with i := some fields }
  | .S => { m with s := some fields }
  | .B => { m with b := some fields }
  | .U => { m with u := some fields }
  | .J => { m with j := some fields }

/-- The slot of a format. -/
def State.schemaAt (s : State) (t : Tag) : Option Schema := s.schemas.get t

/-- Writes one slot. -/
def State.putSchema (s : State) (t : Tag) (fields : Schema) : State :=
  { s with schemas := s.schemas.put t fields }

/-! ## The opcode table (R25) -/

/-- `table[o]`: all 128 indices exist (R54). -/
def State.entryAt (s : State) (o : Opcode) : Option Tag := s.table[o.toNat]'o.isLt

/-- `table[o] <- some t`. -/
def State.putEntry (s : State) (o : Opcode) (t : Tag) : State :=
  { s with table := s.table.set o.toNat (some t) o.isLt }

/-- Whether some entry of the table names a format (SEAL reads every entry, R25). -/
def State.tableNames (s : State) (t : Tag) : Bool := s.table.toList.contains (some t)

/-! ## Responses -/

/-- The state after the command's response has gone to the requester being served. -/
def State.answer (s : State) (r : Response) : State :=
  { s with chan := { s.chan with responses := s.chan.responses ++ [(s.chan.serving, r)] } }

/-- `respond(CODE, payload)`: ends a command with its one response (R8, R80). -/
def respond (r : Response) (s : State) : Result := .next (s.answer r)

/-! ## Faults -/

/-- `fault <- some c`. -/
def State.latchFault (s : State) (c : FaultCause) : State := { s with fault := some c }

/-- Fault entry, `raise Fault(c)`: the cause is latched, the response is FAULT, and nothing else is
written; there is no vector, no handler and nothing saved (R204). -/
def raiseFault (c : FaultCause) (s : State) : Result := respond (.fault c) (s.latchFault c)

/-- The halted check, made before all others: a command that meets a latched fault answers it and writes
nothing (R203 check 2, R205). -/
def unlessHalted (s : State) (body : Result) : Result :=
  match s.fault with
  | some c => respond (.fault c) s
  | none => body

/-! ## Reset -/

/-- The requests left when one requester's command in progress is abandoned: all of them where the requester named
has none (log 6). -/
def abandon (inProgress : Option Nat) (queues : List (List Request)) : List (List Request) :=
  match inProgress with
  | none => queues
  | some q => queues.modify q List.tail

/-- The reset event (R240): every element of the block takes its reset value, and a command in progress is
abandoned without a response. It is the only return from the halted state (R206). What other requesters
have waiting, and what was answered before, is not the block's and stays (log 6). -/
def resetEvent (inProgress : Option Nat) (s : State) : State :=
  { State.reset with chan := { s.chan with queues := abandon inProgress s.chan.queues } }

end Sys2Proof.Machine
end

