-- ==== Sys2Proof/Machine/Channel.lean ====
section
/-! DEFINITION. The channel: which event comes next in the one total order of R56, how a request is taken from
its requester, and how the outside world issues one. The model's form of N_REQ requesters (log 4). -/

namespace Sys2Proof.Machine

/-- N_REQ, the number of requesters that may issue commands (R5). -/
def State.nReq (s : State) : Nat := s.chan.queues.length

/-- A request taken from the channel: its requester, the request, and the queues without it. -/
abbrev Taken := Nat × Request × List (List Request)

/-- Takes requester `q`'s oldest request, if it has one: its own order is kept (R56). -/
def takeRequest (queues : List (List Request)) (q : Nat) : Option Taken :=
  match queues[q]? with
  | some (r :: rest) => some (q, r, queues.set q rest)
  | _ => none

/-- The lowest-numbered requester with a request. -/
def firstPending : List (List Request) → Option Nat
  | [] => none
  | [] :: queues => (firstPending queues).map (· + 1)
  | (_ :: _) :: _ => some 0

/-- The request served next: that of the requester the schedule names if it has one, else that of the
lowest-numbered requester that has. Every interleaving is some schedule's (R56), and a step that finds a
request performs one (R245).
DESIGN CHOICE (log 4). Safe. -/
def arbitrate (wanted : Option Nat) (queues : List (List Request)) : Option Taken :=
  (wanted.bind (takeRequest queues)).or ((firstPending queues).bind (takeRequest queues))

/-- What happens next at the block, with the state in which it happens. -/
inductive Event where
  /-- No request: the block waits, with the place of the schedule, if there was one, used up. -/
  | idle (s : State)
  /-- The reset event has happened. -/
  | resetDone (s : State)
  /-- A request has been taken from its requester and is performed. -/
  | perform (r : Request) (s : State)
deriving DecidableEq, Repr

/-- The channel once a requester's request has been taken. -/
def Channel.serve (c : Channel) (q : Nat) (queues : List (List Request)) : Channel :=
  { c with queues := queues, serving := q }

/-- Serves the request arbitration picks, if any. -/
def serveNext (wanted : Option Nat) (s : State) : Event :=
  match arbitrate wanted s.chan.queues with
  | none => .idle s
  | some (q, r, queues) => .perform r { s with chan := s.chan.serve q queues }

/-- The state once the first place of the schedule is used up. -/
def State.popSlot (s : State) : State :=
  { s with chan := { s.chan with schedule := s.chan.schedule.tail } }

/-- The next event in the total order (R56, R240).
DESIGN CHOICE (log 4): a place is used up when it is reached, also when the requester it names has no request (another
is then served in it) and when no request waits at all (nothing happens in it but that). Safe. -/
def nextEvent (s : State) : Event :=
  match s.chan.schedule with
  | [] => serveNext none s
  | .serve q :: _ => serveNext (some q) s.popSlot
  | .reset inProgress :: _ => .resetDone (resetEvent inProgress s.popSlot)

/-- The queues with one requester's queue changed, new requesters having empty queues. -/
def changeQueue (change : List Request → List Request) : Nat → List (List Request) → List (List Request)
  | 0, [] => [change []]
  | 0, l :: queues => change l :: queues
  | q + 1, [] => [] :: changeQueue change q []
  | q + 1, l :: queues => l :: changeQueue change q queues

/-- The outside world: requester `q` issues a request, which stands behind those it issued before (R56). A number
beyond N_REQ is that of a new requester (log 4). -/
def State.issue (s : State) (q : Nat) (r : Request) : State :=
  { s with chan := { s.chan with queues := changeQueue (· ++ [r]) q s.chan.queues } }

/-- The outside world: a requester issues a sequence of commands, as it does with BUILD_PROGRAM (R5, R242). -/
def State.issueAll (s : State) (q : Nat) : List Instr → State
  | [] => s
  | i :: rest => (s.issue q (encode i)).issueAll q rest

/-- The outside world: the next place of the total order is given to a request of requester 0, put before
all others. -/
def State.issueFirst (s : State) (r : Request) : State :=
  { s with chan := { s.chan with queues := changeQueue (r :: ·) 0 s.chan.queues
                                 schedule := .serve 0 :: s.chan.schedule } }

end Sys2Proof.Machine
end

