-- ==== Sys2Proof/Machine/Operands.lean ====
section
/-! DEFINITION. Operand forms. The tag operand is the only one with reserved values (R83); words, opcodes and
lanes are legal at every value (R54, R70), and a field list is checked by validation (R102). -/

namespace Sys2Proof.Machine

/-- The reserved-tag check: codes 6 and 7 fault, any other code names its format (R83, R203 check 4). -/
def withTag (code : TagCode) (s : State) (body : Tag → Result) : Result :=
  match Tag.ofCode? code with
  | none => raiseFault .reservedTag s
  | some t => body t

end Sys2Proof.Machine
end

