-- ==== Sys2Proof/Machine/Codec.lean ====
section
/-! DEFINITION. The Codec: the field mask (R130), decode (R131), encode (R132), and the commands DECODE
(R136) and ENCODE (R137). -/

namespace Sys2Proof.Machine

/-- `mask(w) = 2^w - 1` as a 32-bit value, computed without overflow: `mask 32` is all ones (R130). -/
def mask (width : Nat) : Word := BitVec.ofNat 32 (2 ^ width - 1)

/-- One field of a word: `(word >> cursor) & mask(width)` (R131). -/
def fieldAt (word : Word) (cursor width : Nat) : Word := (word >>> cursor) &&& mask width

/-- The values of a schema's fields, in schema order, from a cursor on (the loop of R131). -/
def fieldValues (word : Word) : Nat → Schema → List Word
  | _, [] => []
  | cursor, f :: rest => fieldAt word cursor f.width :: fieldValues word (cursor + f.width) rest

/-- `decode(word, S)` (R131): lane `k` is field `k`, zero-extended; lanes beyond the fields are 0. -/
def decodeRecord (word : Word) (schema : Schema) : Lanes :=
  Vector.ofFn fun k => (fieldValues word 0 schema).getD k.val 0

/-- The fields of a list of lanes put in place from a cursor on (the loop of R132). -/
def packFields : Nat → List Word → Schema → Word
  | cursor, v :: lanes, f :: rest =>
    ((v &&& mask f.width) <<< cursor) ||| packFields (cursor + f.width) lanes rest
  | _, _, _ => 0

/-- `encode(lanes, S)` (R132): each value is cut to its field's width, and lanes beyond the fields are
ignored. -/
def encodeRecord (lanes : Lanes) (schema : Schema) : Word := packFields 0 lanes.toList schema

/-- The slot check of DECODE and ENCODE (R203 check 6). -/
def withSchema (t : Tag) (s : State) (body : Schema → Result) : Result :=
  match s.schemaAt t with
  | none => raiseFault .schemaUndefined s
  | some schema => body schema

/-- DECODE, in the order of checks 2, 4, 6, 9 (R136, R203). It reads neither `phase` nor `table`. -/
def execDecode (word : Word) (tag : TagCode) (s : State) : Result :=
  unlessHalted s <| withTag tag s fun t => withSchema t s fun schema =>
    respond (.decoded t (decodeRecord word schema)) s

/-- ENCODE, in the order of checks 2, 4, 6, 9 (R137, R203). -/
def execEncode (tag : TagCode) (lanes : Lanes) (s : State) : Result :=
  unlessHalted s <| withTag tag s fun t => withSchema t s fun schema =>
    respond (.word (encodeRecord lanes schema)) s

end Sys2Proof.Machine
end

