-- ==== Sys2Proof/Machine/Flags.lean ====
section
/-! DEFINITION. The STATUS register, which is computed from the state and never written (R30), and the numeric
codes of fault causes, reasons and responses (R84, R85, R202). -/

namespace Sys2Proof.Machine

/-- The 3-bit code of a fault cause; 0 and 7 are no cause's (R202). -/
def FaultCause.code : FaultCause → BitVec 3
  | .illegalCommand => 1
  | .reservedTag => 2
  | .dispatchBeforeBuilt => 3
  | .tableWriteAfterBuilt => 4
  | .schemaRedefined => 5
  | .schemaUndefined => 6

/-- The 2-bit code of a SCHEMA_ERROR reason; 3 is never produced (R85). -/
def SchemaReason.code : SchemaReason → BitVec 2
  | .empty => 0
  | .zeroWidth => 1
  | .widthSum => 2

/-- The 1-bit code of a SEAL_REFUSED reason (R85). -/
def SealReason.code : SealReason → BitVec 1
  | .buildFailed => 0
  | .missingSchema => 1

/-- The 4-bit RESP code; 9 to 15 are never produced (R84). -/
def Response.code : Response → BitVec 4
  | .ok => 0
  | .decoded _ _ => 1
  | .unrecognized _ => 2
  | .word _ => 3
  | .status _ => 4
  | .schemaError _ => 5
  | .duplicateOpcode _ _ => 6
  | .sealRefused _ _ => 7
  | .fault _ => 8

/-- The four outcome classes (R200). -/
inductive OutcomeClass where
  | normal | documentError | sealRefusal | fault
deriving DecidableEq, Repr

/-- The class of a response: UNRECOGNIZED is a normal outcome (R200). -/
def Response.outcomeClass : Response → OutcomeClass
  | .ok => .normal
  | .decoded _ _ => .normal
  | .unrecognized _ => .normal
  | .word _ => .normal
  | .status _ => .normal
  | .schemaError _ => .documentError
  | .duplicateOpcode _ _ => .documentError
  | .sealRefused _ _ => .sealRefusal
  | .fault _ => .fault

/-- BUILT, STATUS bit 0 (R30). -/
def State.builtFlag (s : State) : BitVec 1 := BitVec.ofBool (s.phase == .built)

/-- BUILD_FAILED, STATUS bit 1 (R30). -/
def State.buildFailedFlag (s : State) : BitVec 1 := BitVec.ofBool s.buildFailed

/-- FAULTED, STATUS bit 2 (R30). -/
def State.faultedFlag (s : State) : BitVec 1 := BitVec.ofBool s.fault.isSome

/-- FAULT_CAUSE, STATUS bits [5:3]: 0 when there is no fault (R30). -/
def State.faultCauseField (s : State) : BitVec 3 :=
  match s.fault with
  | none => 0
  | some c => c.code

/-- SCHEMA_VALID, STATUS bits [13:8]: bit `code(t)` of the field is 1 when `schema[t] ≠ none` (R30). -/
def State.schemaValidField (s : State) : BitVec 6 :=
  BitVec.ofBool (s.schemaAt .J).isSome ++ BitVec.ofBool (s.schemaAt .U).isSome
    ++ BitVec.ofBool (s.schemaAt .B).isSome ++ BitVec.ofBool (s.schemaAt .S).isSome
    ++ BitVec.ofBool (s.schemaAt .I).isSome ++ BitVec.ofBool (s.schemaAt .R).isSome

/-- STATUS, the formula of R30; bits [7:6] and [31:14] read as 0. -/
def State.statusWord (s : State) : Word :=
  (s.schemaValidField.setWidth 32 <<< 8) ||| (s.faultCauseField.setWidth 32 <<< 3)
    ||| (s.faultedFlag.setWidth 32 <<< 2) ||| (s.buildFailedFlag.setWidth 32 <<< 1)
    ||| s.builtFlag.setWidth 32

end Sys2Proof.Machine
end

