-- ==== Sys2Proof/Machine/Dispatcher.lean ====
section
/-! DEFINITION. The Dispatcher: REGISTER_OPCODE (R160), SEAL (R161), DISPATCH (R162), READ_STATUS (R163) and
the reserved command code (R81). -/

namespace Sys2Proof.Machine

/-- The table-write check of REGISTER_OPCODE and SEAL (R203 check 5). -/
def unlessBuilt (s : State) (body : Result) : Result :=
  match s.phase with
  | .built => raiseFault .tableWriteAfterBuilt s
  | .uninit => body

/-- REGISTER_OPCODE, in the order of checks 2, 4, 5, 7, 9 (R160, R203). A duplicate leaves the table as it
is and sets `build_failed`. -/
def execRegisterOpcode (opcode : Opcode) (tag : TagCode) (s : State) : Result :=
  unlessHalted s <| withTag tag s fun t => unlessBuilt s <|
    match s.entryAt opcode with
    | some existing => respond (.duplicateOpcode opcode existing) { s with buildFailed := true }
    | none => respond .ok (s.putEntry opcode t)

/-- The format with the lowest tag code that the table names and that has no schema, if there is one (R161). -/
def firstMissing (s : State) : Option Tag :=
  Config.allTags.find? fun t => s.tableNames t && (s.schemaAt t).isNone

/-- SEAL, in the order of checks 2, 5, 8, 9 (R161, R203). -/
def execSeal (s : State) : Result :=
  unlessHalted s <| unlessBuilt s <|
    if s.buildFailed then respond (.sealRefused .buildFailed 0) s
    else match firstMissing s with
      | some t => respond (.sealRefused .missingSchema t.code) s
      | none => respond .ok { s with phase := .built }

/-- Routing a word through the opcode table, in the order of checks 2, 5, 9 (R162, R203). The schema of a
registered format is valid here by R26; a state in which it is not stops (log 9). -/
def route (word : Word) (s : State) : Result :=
  unlessHalted s <|
    match s.phase with
    | .uninit => raiseFault .dispatchBeforeBuilt s
    | .built =>
      match s.entryAt (opcodeOf word) with
      | none => respond (.unrecognized (opcodeOf word)) s
      | some t =>
        match s.schemaAt t with
        | none => .fault .entryWithoutSchema
        | some schema => respond (.decoded t (decodeRecord word schema)) s

/-- DISPATCH (R162). -/
def execDispatch (word : Word) (s : State) : Result := route word s

/-- READ_STATUS, answered even while the block is halted (R163, R203 check 1). -/
def execReadStatus (s : State) : Result := respond (.status s.statusWord) s

/-- The reserved command code, in the order of checks 2, 3 (R81, R203): it faults with ILLEGAL_COMMAND. -/
def execReservedCmd (s : State) : Result := unlessHalted s (raiseFault .illegalCommand s)

end Sys2Proof.Machine
end

