-- ==== Sys2Proof/Machine/FormatSchema.lean ====
section
/-! DEFINITION. Format schemas: validation (R102) and DEFINE_FORMAT (R105). -/

namespace Sys2Proof.Machine

/-- The sum of the widths of a field list, a natural; 0 for the empty list (R102). -/
def widthSum (fields : List FieldSpec) : Nat := (fields.map FieldSpec.width).sum

/-- `validate` (R102): the first reason of EMPTY, ZERO_WIDTH, WIDTH_SUM that applies, with the sum, or the
list itself. Names are not read (R107). -/
def validate (fields : List FieldSpec) : Except SchemaError Schema :=
  if fields = [] then .error ⟨.empty, 32, widthSum fields⟩
  else if fields.any (fun f => f.width == 0) then .error ⟨.zeroWidth, 32, widthSum fields⟩
  else if widthSum fields ≠ 32 then .error ⟨.widthSum, 32, widthSum fields⟩
  else .ok fields

/-- DEFINE_FORMAT, in the order of checks 2, 4, 6, 7, 9 (R105, R203). -/
def execDefineFormat (tag : TagCode) (fields : List FieldSpec) (s : State) : Result :=
  unlessHalted s <| withTag tag s fun t =>
    if (s.schemaAt t).isSome then raiseFault .schemaRedefined s
    else match validate fields with
      | .error e => respond (.schemaError e) s
      | .ok schema => respond .ok (s.putSchema t schema)

end Sys2Proof.Machine
end

