-- ==== Sys2Proof/Machine/WordRows.lean ====
section
/-! DEFINITION. The rows of the opcode table's word space. Every one follows R162: the word is routed by its
opcode through the table and unpacked whole with the schema the table selects; its fields are not
interpreted (R75, R76, R78). A row's name and format are those of a reference configuration (R77); what the
block answers is decided by the table and the schemas the state holds. -/

namespace Sys2Proof.Machine

/-- A word with opcode 0b0111100. -/
def execJWord (rd : BitVec 5) (imm0 : BitVec 8) (imm1 : BitVec 1) (imm2 : BitVec 10) (imm3 : BitVec 1)
    (s : State) : Result :=
  route (wordJ 0x3C rd imm0 imm1 imm2 imm3) s

/-- A word with opcode 0x03. -/
def execLoad (rd : BitVec 5) (funct3 : BitVec 3) (rs1 : BitVec 5) (imm0 : BitVec 12) (s : State) : Result :=
  route (wordI 0x03 rd funct3 rs1 imm0) s

/-- A word with opcode 0x0F. -/
def execMiscMem (rd : BitVec 5) (funct3 : BitVec 3) (rs1 : BitVec 5) (imm0 : BitVec 12) (s : State) : Result :=
  route (wordI 0x0F rd funct3 rs1 imm0) s

/-- A word with opcode 0x13. -/
def execOpImm (rd : BitVec 5) (funct3 : BitVec 3) (rs1 : BitVec 5) (imm0 : BitVec 12) (s : State) : Result :=
  route (wordI 0x13 rd funct3 rs1 imm0) s

/-- A word with opcode 0x17. -/
def execAuipc (rd : BitVec 5) (imm0 : BitVec 20) (s : State) : Result :=
  route (wordU 0x17 rd imm0) s

/-- A word with opcode 0x23. -/
def execStore (imm0 : BitVec 5) (funct3 : BitVec 3) (rs1 rs2 : BitVec 5) (imm1 : BitVec 7) (s : State) : Result :=
  route (wordS 0x23 imm0 funct3 rs1 rs2 imm1) s

/-- A word with opcode 0x33. -/
def execOp (rd : BitVec 5) (funct3 : BitVec 3) (rs1 rs2 : BitVec 5) (funct7 : BitVec 7) (s : State) : Result :=
  route (wordR 0x33 rd funct3 rs1 rs2 funct7) s

/-- A word with opcode 0x37. -/
def execLui (rd : BitVec 5) (imm0 : BitVec 20) (s : State) : Result :=
  route (wordU 0x37 rd imm0) s

/-- A word with opcode 0x63. -/
def execBranch (imm0 : BitVec 1) (imm1 : BitVec 4) (funct3 : BitVec 3) (rs1 rs2 : BitVec 5) (imm2 : BitVec 6)
    (imm3 : BitVec 1) (s : State) : Result :=
  route (wordB 0x63 imm0 imm1 funct3 rs1 rs2 imm2 imm3) s

/-- A word with opcode 0x67. -/
def execJalr (rd : BitVec 5) (funct3 : BitVec 3) (rs1 : BitVec 5) (imm0 : BitVec 12) (s : State) : Result :=
  route (wordI 0x67 rd funct3 rs1 imm0) s

/-- A word with opcode 0x6F. -/
def execJal (rd : BitVec 5) (imm0 : BitVec 8) (imm1 : BitVec 1) (imm2 : BitVec 10) (imm3 : BitVec 1)
    (s : State) : Result :=
  route (wordJ 0x6F rd imm0 imm1 imm2 imm3) s

/-- A word with opcode 0x73. -/
def execSystem (rd : BitVec 5) (funct3 : BitVec 3) (rs1 : BitVec 5) (imm0 : BitVec 12) (s : State) : Result :=
  route (wordI 0x73 rd funct3 rs1 imm0) s

/-- A word no other row names. -/
def execUnrecognized (opcode : Opcode) (upper : BitVec 25) (s : State) : Result :=
  route (wordOther opcode upper) s

end Sys2Proof.Machine
end

