-- ==== Sys2Proof/Machine/Dispatch.lean ====
section
/-! DEFINITION. One arm per instruction. -/

namespace Sys2Proof.Machine

/-- The meaning of every instruction. -/
def exec (i : Instr) (s : State) : Host.Outcome State Fault Refusal :=
  match i with
  | .defineFormat tag fields => Sys2Proof.Machine.execDefineFormat tag fields s
  | .registerOpcode opcode tag => Sys2Proof.Machine.execRegisterOpcode opcode tag s
  | .sealTable => Sys2Proof.Machine.execSeal s
  | .dispatch word => Sys2Proof.Machine.execDispatch word s
  | .decode word tag => Sys2Proof.Machine.execDecode word tag s
  | .encode tag lanes => Sys2Proof.Machine.execEncode tag lanes s
  | .readStatus => Sys2Proof.Machine.execReadStatus s
  | .reservedCmd => Sys2Proof.Machine.execReservedCmd s
  | .jWord rd imm0 imm1 imm2 imm3 => Sys2Proof.Machine.execJWord rd imm0 imm1 imm2 imm3 s
  | .load rd funct3 rs1 imm0 => Sys2Proof.Machine.execLoad rd funct3 rs1 imm0 s
  | .miscMem rd funct3 rs1 imm0 => Sys2Proof.Machine.execMiscMem rd funct3 rs1 imm0 s
  | .opImm rd funct3 rs1 imm0 => Sys2Proof.Machine.execOpImm rd funct3 rs1 imm0 s
  | .auipc rd imm0 => Sys2Proof.Machine.execAuipc rd imm0 s
  | .store imm0 funct3 rs1 rs2 imm1 => Sys2Proof.Machine.execStore imm0 funct3 rs1 rs2 imm1 s
  | .op rd funct3 rs1 rs2 funct7 => Sys2Proof.Machine.execOp rd funct3 rs1 rs2 funct7 s
  | .lui rd imm0 => Sys2Proof.Machine.execLui rd imm0 s
  | .branch imm0 imm1 funct3 rs1 rs2 imm2 imm3 => Sys2Proof.Machine.execBranch imm0 imm1 funct3 rs1 rs2 imm2 imm3 s
  | .jalr rd funct3 rs1 imm0 => Sys2Proof.Machine.execJalr rd funct3 rs1 imm0 s
  | .jal rd imm0 imm1 imm2 imm3 => Sys2Proof.Machine.execJal rd imm0 imm1 imm2 imm3 s
  | .system rd funct3 rs1 imm0 => Sys2Proof.Machine.execSystem rd funct3 rs1 imm0 s
  | .unrecognized opcode upper => Sys2Proof.Machine.execUnrecognized opcode upper s

end Sys2Proof.Machine
end

