-- ==== Sys2Proof/Machine/Step.lean ====
section
/-! DEFINITION. One step: the next event of the total order (R11, R56). -/

namespace Sys2Proof.Machine

/-- One step. A request is decoded and performed whole, as one atomic transition with exactly one response
(R53, R80); a reset resets; with no request the block waits (log 4). -/
def step (s : State) : Host.Outcome State Fault Refusal :=
  match nextEvent s with
  | .idle t => .next t
  | .resetDone t => .next t
  | .perform r t => exec (decode r) t

/-- The state with the request of an opcode-table number next in the total order: a program is loaded from
outside the machine, as requests (log 7). -/
def State.withFetchWord (s : State) (nbits w : Nat) : State :=
  match requestOfTableWord nbits w with
  | none => s
  | some r => s.issueFirst r

end Sys2Proof.Machine
end

