-- ==== Sys2Proof/Machine/Records.lean ====
section
/-! DEFINITION. Records by field name (R9, R86, R131): the name of lane `k` is the name of field `k`. The block
reads no name (R107); this is how a front end writes ENCODE's lanes and reads DECODED's. -/

namespace Sys2Proof.Machine

/-- Whether a front end may name fields in this schema: names are distinct. The block does not ask it, and
a front end that needs it "must refuse" the rest itself (R107, U9). -/
def namesDistinct (schema : Schema) : Bool := decide (schema.map FieldSpec.name).Nodup

/-- The lanes of a record `{name=value, ...}`: a field named sets the lane at its position, every other
lane is 0 (R86). Refused where the schema's names are not distinct or a name is no field's.
DESIGN CHOICE (log 12): these two refusals are the front end's, and so is the reading of a record that names one
field several times, which R9 and R86 leave open: its first entry for that field sets the lane. So is the reading
of a record not in schema order, in which R9 has records written: it is not refused and is read by name, as R86
has a field named set its lane. Unsafe for a claim about such records, else safe. -/
def lanesOfRecord (schema : Schema) (record : List (String × Word)) : Option Lanes :=
  if namesDistinct schema && record.all (fun e => (schema.map FieldSpec.name).contains e.1) then
    some (Vector.ofFn fun k =>
      match schema[k.val]? with
      | some f => (record.lookup f.name).getD 0
      | none => 0)
  else none

/-- The record a DECODED response is written as: the schema's fields in order with their lanes; lanes
beyond the fields are not written (R9, R86). -/
def recordOfLanes (schema : Schema) (lanes : Lanes) : List (String × Word) :=
  (schema.map FieldSpec.name).zip lanes.toList

end Sys2Proof.Machine
end

