-- ==== Sys2Proof/Machine/Assembly.lean ====
section
/-! DEFINITION. The assembly form of commands and responses (R86): commands that name their record's fields, the
instruction each stands for, and the text of both. It belongs to front ends and to readers; the block reads none
of it. DESIGN CHOICE (log 12): the spelling wherever R86 leaves it open. Safe. -/

namespace Sys2Proof.Machine

/-- A command as R86 writes it. It differs from the request in ENCODE, which names fields instead of lanes. -/
inductive AsmCommand where
  | defineFormat (tag : TagCode) (fields : List FieldSpec)
  | registerOpcode (opcode : Opcode) (tag : TagCode)
  | sealTable
  | dispatch (word : Word)
  | decode (word : Word) (tag : TagCode)
  | encode (tag : TagCode) (record : List (String × Word))
  | readStatus
deriving DecidableEq, Repr

/-- The instruction a written command stands for, given the schemas its writer knows. A tag without a known
schema gives no name a place, so there only the empty record can be written (log 12). -/
def AsmCommand.assemble (known : Tag → Option Schema) : AsmCommand → Option Instr
  | .defineFormat tag fields => some (.defineFormat tag fields)
  | .registerOpcode opcode tag => some (.registerOpcode opcode tag)
  | .sealTable => some .sealTable
  | .dispatch word => some (.dispatch word)
  | .decode word tag => some (.decode word tag)
  | .encode tag record =>
    (lanesOfRecord (((Tag.ofCode? tag).bind known).getD []) record).map (Instr.encode tag)
  | .readStatus => some .readStatus

/-! ## Numbers and names -/

/-- One hexadecimal digit. -/
def hexDigit (n : Nat) : String :=
  ["0", "1", "2", "3", "4", "5", "6", "7", "8", "9", "A", "B", "C", "D", "E", "F"].getD n "0"

/-- The last `count` hexadecimal digits of a number. -/
def hexDigits : Nat → Nat → String
  | 0, _ => ""
  | count + 1, n => hexDigits count (n / 16) ++ hexDigit (n % 16)

/-- A number in hexadecimal, with all the digits its width in bits takes (DESIGN CHOICE, log 12). -/
def hexText (width n : Nat) : String := "0x" ++ hexDigits ((width + 3) / 4) n

/-- A format tag's letter (R83). -/
def tagLetter : Tag → String
  | .R => "R"
  | .I => "I"
  | .S => "S"
  | .B => "B"
  | .U => "U"
  | .J => "J"

/-- A tag operand: its letter, or the number of a reserved code in decimal (DESIGN CHOICE, log 12). -/
def tagText (c : TagCode) : String :=
  match Tag.ofCode? c with
  | some t => tagLetter t
  | none => toString c.toNat

/-- The name of a fault cause (R202). -/
def FaultCause.name : FaultCause → String
  | .illegalCommand => "ILLEGAL_COMMAND"
  | .reservedTag => "RESERVED_TAG"
  | .dispatchBeforeBuilt => "DISPATCH_BEFORE_BUILT"
  | .tableWriteAfterBuilt => "TABLE_WRITE_AFTER_BUILT"
  | .schemaRedefined => "SCHEMA_REDEFINED"
  | .schemaUndefined => "SCHEMA_UNDEFINED"

/-- The name of a SCHEMA_ERROR reason (R85). -/
def SchemaReason.name : SchemaReason → String
  | .empty => "EMPTY"
  | .zeroWidth => "ZERO_WIDTH"
  | .widthSum => "WIDTH_SUM"

/-- Items between an opening and a closing mark, separated by commas. -/
def listText (opening closing : String) (items : List String) : String :=
  opening ++ ", ".intercalate items ++ closing

/-- A record in braces, every value with its own number of digits. -/
def recordText (fields : List (String × Nat × Word)) : String :=
  listText "\x7b" "\x7d" (fields.map fun e => e.1 ++ "=" ++ hexText e.2.1 e.2.2.toNat)

/-! ## Commands and responses -/

/-- The text of a command (R86).
DESIGN CHOICE (log 12): every value of ENCODE's record is written with the 8 digits of a lane, `opcode=0x0000003C`,
since the written command holds no widths; 95_test_vectors.md writes the field's digits or fewer. The entries of the
record are written in the record's own order, in schema order (R9) only if it is, and names are written as they
stand. -/
def AsmCommand.text : AsmCommand → String
  | .defineFormat tag fields =>
    "DEFINE_FORMAT " ++ tagText tag ++ ", "
      ++ listText "[" "]" (fields.map fun f => f.name ++ ":" ++ toString f.width)
  | .registerOpcode opcode tag => "REGISTER_OPCODE " ++ hexText 7 opcode.toNat ++ ", " ++ tagText tag
  | .sealTable => "SEAL"
  | .dispatch word => "DISPATCH " ++ hexText 32 word.toNat
  | .decode word tag => "DECODE " ++ hexText 32 word.toNat ++ ", " ++ tagText tag
  | .encode tag record => "ENCODE " ++ tagText tag ++ ", " ++ recordText (record.map fun e => (e.1, 32, e.2))
  | .readStatus => "READ_STATUS"

/-- The text of a response, given the schemas its reader knows: they name a record's lanes (R9, R86).
DESIGN CHOICE (log 12): each lane is written with the digits of its field's width; without a known schema the record
is written empty. -/
def Response.text (known : Tag → Option Schema) : Response → String
  | .ok => "OK"
  | .decoded tag lanes =>
    let schema := (known tag).getD []
    "DECODED " ++ tagLetter tag ++ " "
      ++ recordText ((schema.zip lanes.toList).map fun e => (e.1.name, e.1.width, e.2))
  | .unrecognized opcode => "UNRECOGNIZED " ++ hexText 7 opcode.toNat
  | .word w => "WORD " ++ hexText 32 w.toNat
  | .status w => "STATUS " ++ hexText 32 w.toNat
  | .schemaError e =>
    "SCHEMA_ERROR " ++ e.reason.name ++ " expected=" ++ toString e.expected ++ " actual=" ++ toString e.actual
  | .duplicateOpcode opcode existing =>
    "DUPLICATE_OPCODE " ++ hexText 7 opcode.toNat ++ " existing=" ++ tagLetter existing
  | .sealRefused .buildFailed _ => "SEAL_REFUSED BUILD_FAILED 0"
  | .sealRefused .missingSchema tag => "SEAL_REFUSED MISSING_SCHEMA " ++ tagText tag
  | .fault cause => "FAULT " ++ cause.name

end Sys2Proof.Machine
end

