-- ==== Sys2Proof/Safety.lean ====
section
/-! DEFINITION. The terms claims are stated in: a valid schema (R102), a field's place (R72), the invariant of the
machine (R24, R26, R22), the halted state (R205), and what is still waiting on the channel. -/

namespace Sys2Proof.Machine

/-- A schema that passed validation: not empty, no zero width, widths that sum to 32 (R102). -/
structure ValidSchema (schema : Schema) : Prop where
  nonempty : schema ≠ []
  positive : ∀ f ∈ schema, 1 ≤ f.width
  total    : (schema.map FieldSpec.width).sum = 32

/-- `off_k`: the bit at which field `k` begins (R72). -/
def fieldOffset (schema : Schema) (k : Nat) : Nat := ((schema.take k).map FieldSpec.width).sum

/-- What holds in every state a run reaches. -/
structure Inv (s : State) : Prop where
  /-- A slot holds only a schema that passed validation (R24). -/
  schemas_valid : ∀ t schema, s.schemaAt t = some schema → ValidSchema schema
  /-- Every entry of a built table names a format that has a schema (R26). -/
  table_closed : s.phase = .built → ∀ o t, s.entryAt o = some t → s.schemaAt t ≠ none
  /-- A table whose construction failed is not built (R22). -/
  built_not_failed : s.phase = .built → s.buildFailed = false

/-- The halted state (R205). -/
def Halted (s : State) : Prop := s.fault ≠ none

/-- A built block that is not halted: the state in which words are dispatched (R242 step 5). -/
structure InUse (s : State) : Prop where
  built   : s.phase = .built
  running : s.fault = none

/-- The block's five elements are the same in two states (R20). -/
structure SameBlock (s t : State) : Prop where
  phase       : t.phase = s.phase
  buildFailed : t.buildFailed = s.buildFailed
  fault       : t.fault = s.fault
  schemas     : t.schemas = s.schemas
  table       : t.table = s.table

/-- How many requests wait on the channel. -/
def pending (s : State) : Nat := (s.chan.queues.map List.length).sum

/-- How many requests of one requester wait. -/
def pendingOf (q : Nat) (s : State) : Nat := ((s.chan.queues[q]?).getD []).length

/-- How many responses one requester has received. -/
def answersTo (q : Nat) (s : State) : Nat := (s.chan.responses.filter fun e => e.1 == q).length

/-- No reset event is to come (R240). -/
def NoReset (s : State) : Prop := ∀ p, Slot.reset p ∉ s.chan.schedule

/-- The one response to the command that led from one state to the next goes to the requester being
served (R80). -/
def Answers (s t : State) (r : Response) : Prop :=
  t.chan.responses = s.chan.responses ++ [(s.chan.serving, r)]

/-- The channel of two states differs in its responses at most. -/
structure SameRequests (s t : State) : Prop where
  queues   : t.chan.queues = s.chan.queues
  schedule : t.chan.schedule = s.chan.schedule
  serving  : t.chan.serving = s.chan.serving

/-- A format the table names that has no schema (R161). -/
def MissingSchema (s : State) (t : Tag) : Prop := (∃ o, s.entryAt o = some t) ∧ s.schemaAt t = none

/-- The lanes that begin with some values, the rest 0 (R131). -/
def lanesFrom (values : List Word) : Lanes := Vector.ofFn fun k => values.getD k.val 0

/-- DISPATCH, DECODE, ENCODE, READ_STATUS (R53) and the rows of the word space, which are dispatches. -/
def readOnly : Instr → Bool
  | .defineFormat _ _ => false
  | .registerOpcode _ _ => false
  | .sealTable => false
  | .reservedCmd => false
  | .dispatch _ => true
  | .decode _ _ => true
  | .encode _ _ => true
  | .readStatus => true
  | .jWord _ _ _ _ _ => true
  | .load _ _ _ _ => true
  | .miscMem _ _ _ _ => true
  | .opImm _ _ _ _ => true
  | .auipc _ _ => true
  | .store _ _ _ _ _ => true
  | .op _ _ _ _ _ => true
  | .lui _ _ => true
  | .branch _ _ _ _ _ _ _ => true
  | .jalr _ _ _ _ => true
  | .jal _ _ _ _ _ => true
  | .system _ _ _ _ => true
  | .unrecognized _ _ => true

end Sys2Proof.Machine
end

