-- ==== Sys2Proof/Certificates/Slice0/Obligations.lean ====
section
/-! DEFINITION. What is claimed of the machine. Each statement names the rules of spec/ it formalises. -/

open Sys2Proof Sys2Proof.Machine

/-! ## Encoding -/

/-- Every instruction that can be spelled decodes from its request with every operand it has (R81, R82, R73,
R74). The bit layouts of the word rows are the J list of R73 and the default SCHEMAS (log 8); that a bare word is a
request (log 2) and which rows are named (log 3) are the model's choices. -/
def Obligations.DecodeOfEncodeIsTheInstruction : Prop :=
  ∀ i : Instr, i.wellFormed = true → decode (encode i) = i

/-- Every 32-bit word is one row of the word space, and no bit of it is lost (R70, R72). That a bare word is a
request (log 2) and which rows are named (log 3) are the model's choices. -/
def Obligations.EveryWordIsOneRowAndNoBitIsLost : Prop :=
  ∀ w : Word, (decode (.word w)).wellFormed = true ∧ (decode (.word w)).space = .word ∧
    encode (decode (.word w)) = .word w

/-- CMD codes 0 to 6 are the seven commands with their operands; code 7 is reserved and faults (R81, R82). -/
def Obligations.CommandCodesSelectTheCommands : Prop :=
  ∀ p : Operands,
    decode (.command 0 p) = .defineFormat p.tag p.fields ∧
    decode (.command 1 p) = .registerOpcode p.opcode p.tag ∧
    decode (.command 2 p) = .sealTable ∧
    decode (.command 3 p) = .dispatch p.word ∧
    decode (.command 4 p) = .decode p.word p.tag ∧
    decode (.command 5 p) = .encode p.tag p.lanes ∧
    decode (.command 6 p) = .readStatus ∧
    decode (.command 7 p) = .reservedCmd ∧
    ∀ s : State, s.fault = none →
      exec (decode (.command 7 p)) s = .next ((s.latchFault .illegalCommand).answer (.fault .illegalCommand))

/-- Tag codes 0 to 5 name R, I, S, B, U, J; a command that names code 6 or 7 faults with RESERVED_TAG (R83). -/
def Obligations.TagCodesNameTheFormats : Prop :=
  Tag.ofCode? 0 = some .R ∧ Tag.ofCode? 1 = some .I ∧ Tag.ofCode? 2 = some .S ∧ Tag.ofCode? 3 = some .B ∧
    Tag.ofCode? 4 = some .U ∧ Tag.ofCode? 5 = some .J ∧
    ∀ c : TagCode, c = 6 ∨ c = 7 → Tag.ofCode? c = none ∧
      ∀ (s : State) (fields : List FieldSpec) (opcode : Opcode) (word : Word) (lanes : Lanes), s.fault = none →
        let faulted : Result := .next ((s.latchFault .reservedTag).answer (.fault .reservedTag))
        exec (.defineFormat c fields) s = faulted ∧ exec (.registerOpcode opcode c) s = faulted ∧
          exec (.decode word c) s = faulted ∧ exec (.encode c lanes) s = faulted

/-- The opcode of a word is its low 7 bits, at the same place whatever the word's format (R71). -/
def Obligations.OpcodeIsTheLowSevenBits : Prop :=
  ∀ w : Word, (opcodeOf w).toNat = (w &&& 0b1111111#32).toNat ∧ (opcodeOf w).toNat = w.toNat % 128

/-- Words written out from the layouts of R73 and R74 decode to the rows they stand for, and command
requests to their commands (the words are those of 95_test_vectors.md). The model's choices in the word clauses:
that a bare word is a request (log 2), and that the rows of CFG_TEST and CFG_RV32I (R77) are named at once, every
other word being UNRECOGNIZED (log 3). The layouts of R, I, S, B and U are the default SCHEMAS (log 8). -/
def Obligations.SampleRequestsDecode : Prop :=
  decode (.word 0b00000000000000001011010100111100#32) = .jWord 0x0A 0x0B 0 0 0 ∧
  decode (.word 0b00000000100000000010001000000011#32) = .load 4 2 0 8 ∧
  decode (.word 0b00000000010100000000000010010011#32) = .opImm 1 0 0 5 ∧
  decode (.word 0b00000000001100000010010000100011#32) = .store 8 2 0 3 0 ∧
  decode (.word 0b00000000001000001000000110110011#32) = .op 3 0 1 2 0 ∧
  decode (.word 0b00010010001101000101001010110111#32) = .lui 5 0x12345 ∧
  decode (.word 0b11111110001000001000111011100011#32) = .branch 1 0xE 0 1 2 0x3F 1 ∧
  decode (.word 0b00000000000000000000000001101111#32) = .jal 0 0 0 0 0 ∧
  decode (.word 0b00000000000000000000000001110011#32) = .system 0 0 0 0 ∧
  decode (.word 0b00000000000000000000000001111111#32) = .unrecognized 0x7F 0 ∧
  decode (.command 3 { word := 0xB53C }) = .dispatch 0xB53C ∧
  decode (.command 1 { opcode := 0x3C, tag := 5 }) = .registerOpcode 0x3C 5

/-- The numeric codes: RESP (R84), SCHEMA_ERROR and SEAL_REFUSED reasons (R85), fault causes (R202). -/
def Obligations.ResponseAndCauseCodes : Prop :=
  (∀ (t : Tag) (l : Lanes) (o : Opcode) (w : Word) (e : SchemaError) (c : TagCode) (x : SealReason) (f : FaultCause),
    (Response.ok).code = 0 ∧ (Response.decoded t l).code = 1 ∧ (Response.unrecognized o).code = 2 ∧
    (Response.word w).code = 3 ∧ (Response.status w).code = 4 ∧ (Response.schemaError e).code = 5 ∧
    (Response.duplicateOpcode o t).code = 6 ∧ (Response.sealRefused x c).code = 7 ∧
    (Response.fault f).code = 8) ∧
  (SchemaReason.empty.code = 0 ∧ SchemaReason.zeroWidth.code = 1 ∧ SchemaReason.widthSum.code = 2) ∧
  (SealReason.buildFailed.code = 0 ∧ SealReason.missingSchema.code = 1) ∧
  FaultCause.illegalCommand.code = 1 ∧ FaultCause.reservedTag.code = 2 ∧
  FaultCause.dispatchBeforeBuilt.code = 3 ∧ FaultCause.tableWriteAfterBuilt.code = 4 ∧
  FaultCause.schemaRedefined.code = 5 ∧ FaultCause.schemaUndefined.code = 6

/-! ## Schemas and the Codec -/

/-- Validation: the first of EMPTY, ZERO_WIDTH, WIDTH_SUM that applies, always with the sum of the widths,
and otherwise the list itself (R102). -/
def Obligations.ValidationReportsTheFirstReason : Prop :=
  ∀ fields : List FieldSpec,
    let sum := (fields.map FieldSpec.width).sum
    (fields = [] → validate fields = .error ⟨.empty, 32, sum⟩) ∧
    (fields ≠ [] → (∃ f ∈ fields, f.width = 0) → validate fields = .error ⟨.zeroWidth, 32, sum⟩) ∧
    (fields ≠ [] → (∀ f ∈ fields, f.width ≠ 0) → sum ≠ 32 → validate fields = .error ⟨.widthSum, 32, sum⟩) ∧
    (fields ≠ [] → (∀ f ∈ fields, f.width ≠ 0) → sum = 32 → validate fields = .ok fields)

/-- Every valid schema has 1 to 32 fields, each 1 to 32 bits wide; 32 fields are all one bit wide and a
single field is 32 bits wide (R103). -/
def Obligations.ValidSchemaBounds : Prop :=
  ∀ fields S : Schema, validate fields = .ok S →
    (1 ≤ S.length ∧ S.length ≤ 32) ∧ (∀ f ∈ S, 1 ≤ f.width ∧ f.width ≤ 32) ∧
      (S.length = 32 → ∀ f ∈ S, f.width = 1) ∧ (S.length = 1 → ∀ f ∈ S, f.width = 32)

/-- The mask of a field is `2^w - 1`, with no overflow at 32 (R130). -/
def Obligations.MaskIsExact : Prop :=
  (∀ w : Nat, 1 ≤ w → w ≤ 32 → (mask w).toNat = 2 ^ w - 1) ∧ mask 32 = 0xFFFFFFFF#32

/-- Decode: lane `k` is the unsigned value of the word's bits at field `k`, and every lane beyond the fields
is 0 (R131). -/
def Obligations.DecodeDeliversEachField : Prop :=
  ∀ (w : Word) (S : Schema), ValidSchema S → ∀ (k : Nat) (hk : k < 32),
    (∀ f, S[k]? = some f →
      ((decodeRecord w S)[k]).toNat = w.toNat / 2 ^ fieldOffset S k % 2 ^ f.width) ∧
    (S.length ≤ k → (decodeRecord w S)[k] = 0)

/-- Encode: the word is the sum of the lanes, each cut to its field's width and moved to its field's place;
lanes beyond the fields add nothing (R132). That the OR of the loop is this sum is an inference R132 marks as its
own, from R130 and R72. -/
def Obligations.EncodeAddsEachFieldAtItsPlace : Prop :=
  ∀ (lanes : Lanes) (S : Schema), ValidSchema S →
    (encodeRecord lanes S).toNat =
      ((List.range S.length).map fun k =>
        (lanes.toList.getD k 0).toNat % 2 ^ ((S.map FieldSpec.width).getD k 0) * 2 ^ fieldOffset S k).sum

/-- Round trip, word first: for every word and every valid schema (R133). -/
def Obligations.EncodeOfDecodeIsTheWord : Prop :=
  ∀ (w : Word) (S : Schema), ValidSchema S → encodeRecord (decodeRecord w S) S = w

/-- Round trip, record first: each lane cut to its width, the lanes beyond the fields 0; the record itself
exactly when it already fits (R134). -/
def Obligations.DecodeOfEncodeCutsEachLane : Prop :=
  ∀ (lanes : Lanes) (S : Schema), ValidSchema S →
    (∀ (k : Nat) (hk : k < 32),
      (∀ f, S[k]? = some f → (decodeRecord (encodeRecord lanes S) S)[k] = lanes[k] &&& mask f.width) ∧
      (S.length ≤ k → (decodeRecord (encodeRecord lanes S) S)[k] = 0)) ∧
    (decodeRecord (encodeRecord lanes S) S = lanes ↔
      ∀ (k : Nat) (hk : k < 32),
        (∀ f, S[k]? = some f → (lanes[k]).toNat < 2 ^ f.width) ∧ (S.length ≤ k → lanes[k] = 0))

/-- Lane 0 of a schema whose first field is 7 bits wide is the opcode the Dispatcher looks up; of another
width, it is that many low bits (R139). -/
def Obligations.FirstLaneOfSevenBitsIsTheOpcode : Prop :=
  ∀ (w : Word) (f : FieldSpec) (rest : Schema), ValidSchema (f :: rest) →
    (f.width = 7 → (decodeRecord w (f :: rest))[0] = (opcodeOf w).setWidth 32) ∧
      ((decodeRecord w (f :: rest))[0]).toNat = w.toNat % 2 ^ f.width

/-! ## The commands, case by case -/

/-- DEFINE_FORMAT, CMD 0: every case in the order of its checks; on OK the one slot is written and nothing else (R105). -/
def Obligations.DefineFormatByCases : Prop :=
  (∀ p : Operands, decode (.command 0 p) = .defineFormat p.tag p.fields) ∧
  ∀ (s : State) (c : TagCode) (fields : List FieldSpec),
    let sum := (fields.map FieldSpec.width).sum
    (∀ x, s.fault = some x → exec (.defineFormat c fields) s = .next (s.answer (.fault x))) ∧
    (s.fault = none → (c = 6 ∨ c = 7) →
      exec (.defineFormat c fields) s = .next ((s.latchFault .reservedTag).answer (.fault .reservedTag))) ∧
    ∀ t : Tag, c = t.code → s.fault = none →
      (s.schemaAt t ≠ none →
        exec (.defineFormat c fields) s = .next ((s.latchFault .schemaRedefined).answer (.fault .schemaRedefined))) ∧
      (s.schemaAt t = none →
        (fields = [] → exec (.defineFormat c fields) s = .next (s.answer (.schemaError ⟨.empty, 32, sum⟩))) ∧
        (fields ≠ [] → (∃ f ∈ fields, f.width = 0) →
          exec (.defineFormat c fields) s = .next (s.answer (.schemaError ⟨.zeroWidth, 32, sum⟩))) ∧
        (fields ≠ [] → (∀ f ∈ fields, f.width ≠ 0) → sum ≠ 32 →
          exec (.defineFormat c fields) s = .next (s.answer (.schemaError ⟨.widthSum, 32, sum⟩))) ∧
        (fields ≠ [] → (∀ f ∈ fields, f.width ≠ 0) → sum = 32 →
          exec (.defineFormat c fields) s = .next ((s.putSchema t fields).answer .ok) ∧
          (s.putSchema t fields).schemaAt t = some fields ∧
          (∀ u, u ≠ t → (s.putSchema t fields).schemaAt u = s.schemaAt u) ∧
          (s.putSchema t fields).phase = s.phase ∧ (s.putSchema t fields).buildFailed = s.buildFailed ∧
          (s.putSchema t fields).fault = s.fault ∧ (s.putSchema t fields).table = s.table ∧
          (s.putSchema t fields).chan = s.chan))

/-- REGISTER_OPCODE, CMD 1: every case in the order of its checks; on OK the one entry is written and nothing else,
and a duplicate leaves the table and sets `build_failed` (R160). -/
def Obligations.RegisterOpcodeByCases : Prop :=
  (∀ p : Operands, decode (.command 1 p) = .registerOpcode p.opcode p.tag) ∧
  ∀ (s : State) (o : Opcode) (c : TagCode),
    (∀ x, s.fault = some x → exec (.registerOpcode o c) s = .next (s.answer (.fault x))) ∧
    (s.fault = none → (c = 6 ∨ c = 7) →
      exec (.registerOpcode o c) s = .next ((s.latchFault .reservedTag).answer (.fault .reservedTag))) ∧
    ∀ t : Tag, c = t.code → s.fault = none →
      (s.phase = .built → exec (.registerOpcode o c) s =
        .next ((s.latchFault .tableWriteAfterBuilt).answer (.fault .tableWriteAfterBuilt))) ∧
      (s.phase = .uninit →
        (∀ existing, s.entryAt o = some existing → exec (.registerOpcode o c) s =
          .next (State.answer { s with buildFailed := true } (.duplicateOpcode o existing))) ∧
        (s.entryAt o = none →
          exec (.registerOpcode o c) s = .next ((s.putEntry o t).answer .ok) ∧
          (s.putEntry o t).entryAt o = some t ∧
          (∀ p, p ≠ o → (s.putEntry o t).entryAt p = s.entryAt p) ∧
          (s.putEntry o t).phase = s.phase ∧ (s.putEntry o t).buildFailed = s.buildFailed ∧
          (s.putEntry o t).fault = s.fault ∧ (s.putEntry o t).schemas = s.schemas ∧
          (s.putEntry o t).chan = s.chan))

/-- SEAL, CMD 2: every case in the order of its checks. Of several formats without a schema the one with the lowest
tag code is reported (R161). -/
def Obligations.SealByCases : Prop :=
  (∀ p : Operands, decode (.command 2 p) = .sealTable) ∧
  ∀ s : State,
    (∀ x, s.fault = some x → exec .sealTable s = .next (s.answer (.fault x))) ∧
    (s.fault = none →
      (s.phase = .built → exec .sealTable s =
        .next ((s.latchFault .tableWriteAfterBuilt).answer (.fault .tableWriteAfterBuilt))) ∧
      (s.phase = .uninit →
        (s.buildFailed = true → exec .sealTable s = .next (s.answer (.sealRefused .buildFailed 0))) ∧
        (s.buildFailed = false →
          (∀ t, MissingSchema s t → (∀ u, MissingSchema s u → t.code.toNat ≤ u.code.toNat) →
            exec .sealTable s = .next (s.answer (.sealRefused .missingSchema t.code))) ∧
          ((∀ t, ¬ MissingSchema s t) →
            exec .sealTable s = .next (State.answer { s with phase := .built } .ok)))))

/-- DISPATCH, CMD 3: every case in the order of its checks; it writes nothing unless it faults. That a registered
format has a schema is R26, so the states are those that meet the invariant (R162). -/
def Obligations.DispatchByCases : Prop :=
  (∀ p : Operands, decode (.command 3 p) = .dispatch p.word) ∧
  ∀ (s : State) (w : Word), Inv s →
    (∀ x, s.fault = some x → exec (.dispatch w) s = .next (s.answer (.fault x))) ∧
    (s.fault = none →
      (s.phase = .uninit → exec (.dispatch w) s =
        .next ((s.latchFault .dispatchBeforeBuilt).answer (.fault .dispatchBeforeBuilt))) ∧
      (s.phase = .built →
        (s.entryAt (opcodeOf w) = none →
          exec (.dispatch w) s = .next (s.answer (.unrecognized (opcodeOf w)))) ∧
        (∀ t, s.entryAt (opcodeOf w) = some t → ∃ S, s.schemaAt t = some S ∧
          exec (.dispatch w) s = .next (s.answer (.decoded t (decodeRecord w S))))))

/-- DECODE, CMD 4: every case in the order of its checks, in either phase (R136). -/
def Obligations.DecodeByCases : Prop :=
  (∀ p : Operands, decode (.command 4 p) = .decode p.word p.tag) ∧
  ∀ (s : State) (w : Word) (c : TagCode),
    (∀ x, s.fault = some x → exec (.decode w c) s = .next (s.answer (.fault x))) ∧
    (s.fault = none → (c = 6 ∨ c = 7) →
      exec (.decode w c) s = .next ((s.latchFault .reservedTag).answer (.fault .reservedTag))) ∧
    ∀ t : Tag, c = t.code → s.fault = none →
      (s.schemaAt t = none →
        exec (.decode w c) s = .next ((s.latchFault .schemaUndefined).answer (.fault .schemaUndefined))) ∧
      (∀ S, s.schemaAt t = some S →
        exec (.decode w c) s = .next (s.answer (.decoded t (decodeRecord w S))))

/-- ENCODE, CMD 5: every case in the order of its checks, in either phase (R137). -/
def Obligations.EncodeByCases : Prop :=
  (∀ p : Operands, decode (.command 5 p) = .encode p.tag p.lanes) ∧
  ∀ (s : State) (c : TagCode) (lanes : Lanes),
    (∀ x, s.fault = some x → exec (.encode c lanes) s = .next (s.answer (.fault x))) ∧
    (s.fault = none → (c = 6 ∨ c = 7) →
      exec (.encode c lanes) s = .next ((s.latchFault .reservedTag).answer (.fault .reservedTag))) ∧
    ∀ t : Tag, c = t.code → s.fault = none →
      (s.schemaAt t = none →
        exec (.encode c lanes) s = .next ((s.latchFault .schemaUndefined).answer (.fault .schemaUndefined))) ∧
      (∀ S, s.schemaAt t = some S →
        exec (.encode c lanes) s = .next (s.answer (.word (encodeRecord lanes S))))

/-- READ_STATUS, CMD 6, answers STATUS in every state, halted ones too, and writes nothing (R163). -/
def Obligations.ReadStatusAlwaysAnswers : Prop :=
  (∀ p : Operands, decode (.command 6 p) = .readStatus) ∧
  ∀ s : State, exec .readStatus s = .next (s.answer (.status s.statusWord))

/-- STATUS bit by bit, its legal values, its value after reset, and that READ_STATUS returns it (R30). -/
def Obligations.StatusFields : Prop :=
  (∀ s : State,
    (s.statusWord.getLsbD 0 = true ↔ s.phase = .built) ∧
    (s.statusWord.getLsbD 1 = s.buildFailed) ∧
    (s.statusWord.getLsbD 2 = true ↔ s.fault ≠ none) ∧
    (s.fault = none → s.statusWord.extractLsb' 3 3 = 0) ∧
    (∀ c, s.fault = some c → s.statusWord.extractLsb' 3 3 = c.code) ∧
    s.statusWord.extractLsb' 6 2 = 0 ∧
    (∀ t : Tag, s.statusWord.getLsbD (8 + t.code.toNat) = true ↔ s.schemaAt t ≠ none) ∧
    s.statusWord.extractLsb' 14 18 = 0 ∧
    (s.statusWord.getLsbD 2 = true ↔ s.statusWord.extractLsb' 3 3 ≠ 0) ∧
    s.statusWord.extractLsb' 3 3 ≠ 7 ∧
    exec .readStatus s = .next (s.answer (.status s.statusWord))) ∧
  State.reset.statusWord = 0x00000000#32

/-- The reserved command code faults with ILLEGAL_COMMAND, unless the block is halted (R81, R202, R203). -/
def Obligations.ReservedCommandFaults : Prop :=
  ∀ s : State,
    (s.fault = none →
      exec .reservedCmd s = .next ((s.latchFault .illegalCommand).answer (.fault .illegalCommand))) ∧
    (∀ x, s.fault = some x → exec .reservedCmd s = .next (s.answer (.fault x)))

/-! ## The rows of the word space -/

/-- A row of the word space does what DISPATCH of its word does, in every state (R162; that a word can be
presented without a command code is the model's choice, log 2). -/
def Obligations.WordRowsAreDispatches : Prop :=
  ∀ (i : Instr) (w : Word), encode i = .word w → ∀ s : State, exec i s = exec (.dispatch w) s

/-- Every row of the word space, under every SCHEMAS: in a built block whose table names a defined format for
the word's opcode, the whole word is unpacked with that format's schema and nothing is written; where the
table has no entry, the answer is UNRECOGNIZED with the opcode (R162). The rows are J__opcode_0b0111100, LOAD, MISC-MEM,
OP-IMM, AUIPC, STORE, OP, LUI, BRANCH, JALR, JAL, SYSTEM and UNRECOGNIZED. -/
def Obligations.WordRowsCompleteUnderEverySchemas : Prop :=
  ∀ (i : Instr) (w : Word), encode i = .word w → ∀ s : State, InUse s →
    (∀ t S, s.entryAt (opcodeOf w) = some t → s.schemaAt t = some S →
      exec i s = .next (s.answer (.decoded t (decodeRecord w S)))) ∧
    (s.entryAt (opcodeOf w) = none → exec i s = .next (s.answer (.unrecognized (opcodeOf w))))

/-- The I-format rows under the default SCHEMAS (log 8): each field in its own lane, zero-extended (R74, R75). -/
def Obligations.IFormatRowsUnpackUnderTheDefaults : Prop :=
  ∀ (s : State) (rd : BitVec 5) (funct3 : BitVec 3) (rs1 : BitVec 5) (imm0 : BitVec 12), InUse s →
    s.schemaAt .I = some (Config.defaultSchemas.fields .I) →
    let answer (o : Opcode) : Result := .next (s.answer (.decoded .I (lanesFrom
      [o.setWidth 32, rd.setWidth 32, funct3.setWidth 32, rs1.setWidth 32, imm0.setWidth 32])))
    (s.entryAt 0x03 = some .I → exec (.load rd funct3 rs1 imm0) s = answer 0x03) ∧
    (s.entryAt 0x0F = some .I → exec (.miscMem rd funct3 rs1 imm0) s = answer 0x0F) ∧
    (s.entryAt 0x13 = some .I → exec (.opImm rd funct3 rs1 imm0) s = answer 0x13) ∧
    (s.entryAt 0x67 = some .I → exec (.jalr rd funct3 rs1 imm0) s = answer 0x67) ∧
    (s.entryAt 0x73 = some .I → exec (.system rd funct3 rs1 imm0) s = answer 0x73)

/-- The U-format rows under the default SCHEMAS (log 8) (R74, R75). -/
def Obligations.UFormatRowsUnpackUnderTheDefaults : Prop :=
  ∀ (s : State) (rd : BitVec 5) (imm0 : BitVec 20), InUse s →
    s.schemaAt .U = some (Config.defaultSchemas.fields .U) →
    let answer (o : Opcode) : Result := .next (s.answer (.decoded .U (lanesFrom
      [o.setWidth 32, rd.setWidth 32, imm0.setWidth 32])))
    (s.entryAt 0x17 = some .U → exec (.auipc rd imm0) s = answer 0x17) ∧
    (s.entryAt 0x37 = some .U → exec (.lui rd imm0) s = answer 0x37)

/-- The S- and R-format rows under the default SCHEMAS (log 8) (R74, R75, R76). -/
def Obligations.SAndRFormatRowsUnpackUnderTheDefaults : Prop :=
  ∀ (s : State) (a : BitVec 5) (funct3 : BitVec 3) (rs1 rs2 : BitVec 5) (top : BitVec 7), InUse s →
    let answer (t : Tag) (o : Opcode) : Result := .next (s.answer (.decoded t (lanesFrom
      [o.setWidth 32, a.setWidth 32, funct3.setWidth 32, rs1.setWidth 32, rs2.setWidth 32, top.setWidth 32])))
    (s.entryAt 0x23 = some .S → s.schemaAt .S = some (Config.defaultSchemas.fields .S) →
      exec (.store a funct3 rs1 rs2 top) s = answer .S 0x23) ∧
    (s.entryAt 0x33 = some .R → s.schemaAt .R = some (Config.defaultSchemas.fields .R) →
      exec (.op a funct3 rs1 rs2 top) s = answer .R 0x33)

/-- The B-format row under the default SCHEMAS (log 8): eight pieces, unassembled (R74, R75). -/
def Obligations.BFormatRowUnpacksUnderTheDefaults : Prop :=
  ∀ (s : State) (imm0 : BitVec 1) (imm1 : BitVec 4) (funct3 : BitVec 3) (rs1 rs2 : BitVec 5) (imm2 : BitVec 6)
    (imm3 : BitVec 1), InUse s → s.entryAt 0x63 = some .B →
    s.schemaAt .B = some (Config.defaultSchemas.fields .B) →
    exec (.branch imm0 imm1 funct3 rs1 rs2 imm2 imm3) s = .next (s.answer (.decoded .B (lanesFrom
      [0x63, imm0.setWidth 32, imm1.setWidth 32, funct3.setWidth 32, rs1.setWidth 32, rs2.setWidth 32,
        imm2.setWidth 32, imm3.setWidth 32])))

/-- The J-format rows under the normative J schema: opcode [6:0], rd [11:7], imm0 [19:12], imm1 [20],
imm2 [30:21], imm3 [31], each in its own lane (R73, R75). -/
def Obligations.JFormatRowsUnpack : Prop :=
  ∀ (s : State) (rd : BitVec 5) (imm0 : BitVec 8) (imm1 : BitVec 1) (imm2 : BitVec 10) (imm3 : BitVec 1), InUse s →
    s.schemaAt .J = some Config.schemaJ →
    let answer (o : Opcode) : Result := .next (s.answer (.decoded .J (lanesFrom
      [o.setWidth 32, rd.setWidth 32, imm0.setWidth 32, imm1.setWidth 32, imm2.setWidth 32, imm3.setWidth 32])))
    (s.entryAt 0x3C = some .J → exec (.jWord rd imm0 imm1 imm2 imm3) s = answer 0x3C) ∧
    (s.entryAt 0x6F = some .J → exec (.jal rd imm0 imm1 imm2 imm3) s = answer 0x6F)

/-- DISPATCH is a function of the opcode's entry: DECODED exactly for a registered opcode, UNRECOGNIZED
otherwise, the same whatever was dispatched before, and equal to DECODE with the table's tag (R164). -/
def Obligations.DispatchIsDecodeWithTheTablesTag : Prop :=
  ∀ (s : State) (w : Word), Inv s → InUse s →
    (∀ t, s.entryAt (opcodeOf w) = some t ↔
      ∃ S, s.schemaAt t = some S ∧ exec (.dispatch w) s = .next (s.answer (.decoded t (decodeRecord w S)))) ∧
    (s.entryAt (opcodeOf w) = none ↔ exec (.dispatch w) s = .next (s.answer (.unrecognized (opcodeOf w)))) ∧
    (∀ t, s.entryAt (opcodeOf w) = some t → exec (.dispatch w) s = exec (.decode w t.code) s) ∧
    (∀ v u r, exec (.dispatch v) s = .next u →
      (exec (.dispatch w) s = .next (s.answer r) ↔ exec (.dispatch w) u = .next (u.answer r)))

/-! ## What each command may write -/

/-- One response each: whatever an instruction does, it answers the requester being served exactly once, and
takes no request and no place of the schedule itself (R80). -/
def Obligations.EveryCommandAnswersExactlyOnce : Prop :=
  ∀ (i : Instr) (s t : State), exec i s = .next t → (∃ r, Answers s t r) ∧ SameRequests s t

/-- `phase` changes only by a successful SEAL, and only from UNINIT to BUILT; a reset event takes it back, and it is UNINIT at reset (R21). -/
def Obligations.PhaseChangesOnlyByASuccessfulSeal : Prop :=
  (∀ (i : Instr) (s t : State), exec i s = .next t → t.phase ≠ s.phase →
    i = .sealTable ∧ s.phase = .uninit ∧ t.phase = .built ∧ Answers s t .ok) ∧
  (∀ (p : Option Nat) (s : State), (resetEvent p s).phase = .uninit) ∧ State.reset.phase = .uninit

/-- `build_failed` is set by a REGISTER_OPCODE that answers DUPLICATE_OPCODE and by nothing else, no command
clears it, a reset event does, while it is set the table does not become built, and it is false at reset (R22). -/
def Obligations.BuildFailedIsSetByDuplicatesAlone : Prop :=
  (∀ (i : Instr) (s t : State), exec i s = .next t →
    (∀ o existing, Answers s t (.duplicateOpcode o existing) → t.buildFailed = true) ∧
    (s.buildFailed = true → t.buildFailed = true) ∧
    (s.buildFailed = false → t.buildFailed = true →
      ∃ o c existing, i = .registerOpcode o c ∧ Answers s t (.duplicateOpcode o existing)) ∧
    (s.buildFailed = true → t.phase = s.phase)) ∧
  (∀ s : State, s.fault = none → s.phase = .uninit → s.buildFailed = true →
    exec .sealTable s = .next (s.answer (.sealRefused .buildFailed 0))) ∧
  (∀ (p : Option Nat) (s : State), (resetEvent p s).buildFailed = false) ∧ State.reset.buildFailed = false

/-- A schema slot is written only by a successful DEFINE_FORMAT that names it, only from empty, and only with
a valid schema; every slot is empty at reset (R24). -/
def Obligations.SlotsAreWrittenOnceByDefineFormat : Prop :=
  (∀ (i : Instr) (s t : State) (u : Tag), exec i s = .next t → t.schemaAt u ≠ s.schemaAt u →
    s.schemaAt u = none ∧ ∃ fields, i = .defineFormat u.code fields ∧ ValidSchema fields ∧
      t.schemaAt u = some fields ∧ Answers s t .ok) ∧
  ∀ u, State.reset.schemaAt u = none

/-- A table entry is written only by a successful REGISTER_OPCODE that names it, only from `none`, and only
while the table is uninitialized; every entry is `none` at reset (R25). -/
def Obligations.EntriesAreWrittenOnceByRegisterOpcode : Prop :=
  (∀ (i : Instr) (s t : State) (o : Opcode), exec i s = .next t → t.entryAt o ≠ s.entryAt o →
    s.entryAt o = none ∧ s.phase = .uninit ∧ ∃ u : Tag, i = .registerOpcode o u.code ∧
      t.entryAt o = some u ∧ Answers s t .ok) ∧
  ∀ o, State.reset.entryAt o = none

/-- DISPATCH, DECODE, ENCODE, READ_STATUS and the word rows write no state, except `fault` where they
fault (R29, R53). -/
def Obligations.ReadCommandsWriteNothing : Prop :=
  ∀ (i : Instr) (s t : State), readOnly i = true → exec i s = .next t →
    t.phase = s.phase ∧ t.buildFailed = s.buildFailed ∧ t.schemas = s.schemas ∧ t.table = s.table ∧
      (t.fault = s.fault ∨ (s.fault = none ∧ ∃ c, t.fault = some c ∧ Answers s t (.fault c)))

/-- They are idempotent: repeated at once, such a command gives the same response (R53). -/
def Obligations.ReadCommandsRepeatTheirResponse : Prop :=
  ∀ (i : Instr) (s t : State) (r : Response), readOnly i = true → exec i s = .next t → Answers s t r →
    ∃ u, exec i t = .next u ∧ Answers t u r

/-- Among themselves their order changes no response: such a command that does not fault leaves the response
of every other command what it was (R56). -/
def Obligations.ReadCommandsDoNotDisturbEachOther : Prop :=
  ∀ (i j : Instr) (s t u : State) (r : Response), readOnly i = true → readOnly j = true → exec i s = .next t →
    t.fault = none → exec j s = .next u → Answers s u r → ∃ v, exec j t = .next v ∧ Answers t v r

/-- Which command produces which response, and with what payload (R84, R201). -/
def Obligations.ResponsesComeFromTheirCommands : Prop :=
  ∀ (i : Instr) (s t : State) (r : Response), exec i s = .next t → Answers s t r →
    (r = .ok → (∃ c fields, i = .defineFormat c fields) ∨ (∃ o c, i = .registerOpcode o c) ∨ i = .sealTable) ∧
    (∀ u lanes, r = .decoded u lanes → i.space = .word ∨ (∃ w, i = .dispatch w) ∨ ∃ w, i = .decode w u.code) ∧
    (∀ o, r = .unrecognized o → i.space = .word ∨ ∃ w, i = .dispatch w ∧ o = opcodeOf w) ∧
    (∀ w, r = .word w → ∃ c lanes, i = .encode c lanes) ∧
    (∀ w, r = .status w → i = .readStatus ∧ w = s.statusWord) ∧
    (∀ e, r = .schemaError e → e.expected = 32 ∧
      ∃ c fields, i = .defineFormat c fields ∧ e.actual = (fields.map FieldSpec.width).sum) ∧
    (∀ o existing, r = .duplicateOpcode o existing →
      s.entryAt o = some existing ∧ ∃ c, i = .registerOpcode o c) ∧
    (∀ x c, r = .sealRefused x c → i = .sealTable ∧
      (x = .buildFailed → c = 0) ∧ (x = .missingSchema → ∃ u, c = u.code ∧ MissingSchema s u))

/-- What each class of outcome does to the block: a normal outcome latches no fault, a document error
writes at most `build_failed`, a seal refusal writes nothing, a fault leaves the block halted (R200). -/
def Obligations.OutcomeClassesAndTheirEffects : Prop :=
  (∀ o, (Response.unrecognized o).outcomeClass = .normal) ∧
  ∀ (i : Instr) (s t : State) (r : Response), exec i s = .next t → Answers s t r →
    (r.outcomeClass = .normal → t.fault = s.fault) ∧
    (r.outcomeClass = .documentError →
      SameBlock s t ∨ ((∃ o existing, r = .duplicateOpcode o existing) ∧ SameBlock { s with buildFailed := true } t)) ∧
    (r.outcomeClass = .sealRefusal → SameBlock s t) ∧
    (r.outcomeClass = .fault → t.fault ≠ none)

/-! ## Faults and the halted state -/

/-- Fault entry: a command that answers FAULT c from a running block latches c and writes nothing else (R204). -/
def Obligations.FaultEntryLatchesTheCauseAlone : Prop :=
  ∀ (i : Instr) (s t : State) (c : FaultCause), exec i s = .next t → s.fault = none → Answers s t (.fault c) →
    t = (s.latchFault c).answer (.fault c)

/-- Which command raises which cause, and when (R202; the word rows raise what DISPATCH raises). -/
def Obligations.CausesComeFromTheirCommands : Prop :=
  ∀ (i : Instr) (s t : State) (c : FaultCause), exec i s = .next t → s.fault = none → t.fault = some c →
    (c = .illegalCommand → i = .reservedCmd) ∧
    (c = .reservedTag → ∃ x : TagCode, (x = 6 ∨ x = 7) ∧ ((∃ fields, i = .defineFormat x fields) ∨
      (∃ o, i = .registerOpcode o x) ∨ (∃ w, i = .decode w x) ∨ ∃ lanes, i = .encode x lanes)) ∧
    (c = .dispatchBeforeBuilt → s.phase = .uninit ∧ (i.space = .word ∨ ∃ w, i = .dispatch w)) ∧
    (c = .tableWriteAfterBuilt → s.phase = .built ∧ (i = .sealTable ∨ ∃ o x, i = .registerOpcode o x)) ∧
    (c = .schemaRedefined → ∃ u fields, i = .defineFormat u.code fields ∧ s.schemaAt u ≠ none) ∧
    (c = .schemaUndefined → ∃ u, s.schemaAt u = none ∧
      ((∃ w, i = .decode w u.code) ∨ ∃ lanes, i = .encode u.code lanes))

/-- The halted state: every command but READ_STATUS answers the latched cause and writes nothing; READ_STATUS
answers with FAULTED = 1; no step but a reset leaves the state (R205). -/
def Obligations.HaltedBlockAnswersTheLatchedCause : Prop :=
  ∀ (s : State) (c : FaultCause), s.fault = some c →
    (∀ i, i ≠ .readStatus → exec i s = .next (s.answer (.fault c))) ∧
    exec .readStatus s = .next (s.answer (.status s.statusWord)) ∧ s.statusWord.getLsbD 2 = true ∧
    (∀ t, step s = .next t → t.fault ≠ some c → ∃ p rest, s.chan.schedule = .reset p :: rest)

/-- However many steps follow, without a reset a halted block keeps every element it has, the first cause
among them (R23, R206). -/
def Obligations.HaltedBlockNeverChangesWithoutReset : Prop :=
  ∀ (n : Nat) (s t : State), Halted s → NoReset s → core.run n s = .next t → SameBlock s t

/-! ## The machine -/

/-- Reset values (R32). -/
def Obligations.ResetValues : Prop :=
  State.reset.phase = .uninit ∧ State.reset.buildFailed = false ∧ State.reset.fault = none ∧
    (∀ t, State.reset.schemaAt t = none) ∧ (∀ o, State.reset.entryAt o = none) ∧
    State.reset.statusWord = 0x00000000#32

/-- The invariant holds after reset, whatever the number of requesters (R24, R26, R22). -/
def Obligations.ResetMeetsTheInvariant : Prop :=
  Inv State.reset ∧ ∀ (nReq : Nat) (h : 1 ≤ nReq), Inv (State.resetFor nReq h)

/-- Every step keeps the invariant, from every state that meets it: slots hold valid schemas, a built table
names only defined formats, a failed construction is never built (R26, R24, R22). -/
def Obligations.StepKeepsTheInvariant : Prop :=
  ∀ s t : State, Inv s → step s = .next t → Inv t

/-- Under the invariant no instruction and no step stops: every request has a response (R87). -/
def Obligations.NothingStopsUnderTheInvariant : Prop :=
  ∀ s : State, Inv s → (∀ i, ∃ t, exec i s = .next t) ∧ ∃ t, step s = .next t

/-- A step performs the decoded request: when the schedule names a requester that has one, its oldest is
taken, that requester is served, and the step is exec of the decoded instruction (R11, R56). -/
def Obligations.StepPerformsTheDecodedRequest : Prop :=
  ∀ (s : State) (q : Nat) (i : Instr) (waiting : List Request) (later : List Slot), i.wellFormed = true →
    s.chan.schedule = .serve q :: later → s.chan.queues[q]? = some (encode i :: waiting) →
    step s = exec i { s with chan := { s.chan with queues := s.chan.queues.set q waiting
                                                   schedule := later
                                                   serving := q } }

/-- Without a place in the schedule the lowest-numbered requester with a request is served; with no request
at all the block waits unchanged (log 4: the model's choice where R56 leaves the order free). -/
def Obligations.UnscheduledStepServesTheLowestRequester : Prop :=
  ∀ s : State, s.chan.schedule = [] →
    (∀ (q : Nat) (r : Request) (waiting : List Request), s.chan.queues[q]? = some (r :: waiting) →
      (∀ p < q, s.chan.queues[p]? = some []) →
      step s = exec (decode r) { s with chan := { s.chan with queues := s.chan.queues.set q waiting
                                                              serving := q } }) ∧
    ((∀ l ∈ s.chan.queues, l = []) → step s = .next s)

/-- Each requester's own order is kept: a step takes from at most one queue, and from that its oldest
request, and what it answers goes to that requester (R56). -/
def Obligations.EachRequestersOrderIsKept : Prop :=
  ∀ s t : State, NoReset s → step s = .next t →
    (t.chan.queues = s.chan.queues ∧ t.chan.responses = s.chan.responses) ∨
    ∃ q r waiting answer, s.chan.queues[q]? = some (r :: waiting) ∧ t.chan.queues = s.chan.queues.set q waiting ∧
      t.chan.responses = s.chan.responses ++ [(q, answer)]

/-- The reset event gives every element its reset value, drops the command in progress without a response,
and is the only event that goes back to UNINIT, clears a latch, or empties a slot or an entry (R240). -/
def Obligations.ResetEventAndNothingElseGoesBack : Prop :=
  (∀ (s : State) (inProgress : Option Nat) (later : List Slot), s.chan.schedule = .reset inProgress :: later →
    ∃ t, step s = .next t ∧ SameBlock State.reset t ∧ t.chan.schedule = later ∧
      t.chan.responses = s.chan.responses ∧
      ∀ q, t.chan.queues[q]? =
        if inProgress = some q then (s.chan.queues[q]?).map List.tail else s.chan.queues[q]?) ∧
  (∀ s t : State, (∀ p later, s.chan.schedule ≠ .reset p :: later) → step s = .next t →
    (s.phase = .built → t.phase = .built) ∧ (s.buildFailed = true → t.buildFailed = true) ∧
    (∀ c, s.fault = some c → t.fault = some c) ∧
    (∀ u S, s.schemaAt u = some S → t.schemaAt u = some S) ∧
    (∀ o u, s.entryAt o = some u → t.entryAt o = some u))

/-- Every request is answered, exactly once, in as many steps as there are requests, whatever the
interleaving (R80, R245). -/
def Obligations.EveryRequestIsAnsweredOnce : Prop :=
  ∀ s : State, Inv s → NoReset s →
    ∃ t, core.run (pending s) s = .next t ∧ pending t = 0 ∧
      ∀ q, answersTo q t = answersTo q s + pendingOf q s

/-- After SEAL every DISPATCH answers as it did at any earlier time, whatever was performed in between, as
long as neither a fault nor a reset came (R57, R59). -/
def Obligations.DispatchAnswersAreFixedAfterSeal : Prop :=
  ∀ (n : Nat) (s t : State), Inv s → InUse s → NoReset s → core.run n s = .next t → t.fault = none →
    ∀ w, ∃ r, exec (.dispatch w) s = .next (s.answer r) ∧ exec (.dispatch w) t = .next (t.answer r)

/-- N_REQ is a parameter of at least 1: every number of requesters can be had after reset, State.reset has one, and
no instruction and no step changes the number (R5; that it is the number of queues is the model's choice, log 4). -/
def Obligations.NumberOfRequestersIsFixed : Prop :=
  (∀ (nReq : Nat) (h : 1 ≤ nReq), (State.resetFor nReq h).nReq = nReq) ∧ State.reset.nReq = 1 ∧
  (∀ (i : Instr) (s t : State), exec i s = .next t → t.nReq = s.nReq) ∧
  ∀ s t : State, step s = .next t → t.nReq = s.nReq

/-! ## Written records -/

/-- The written form of records (R86, R9). ENCODE: a field named sets the lane at its position in the schema, every
lane not named is 0, those beyond the fields among them. DECODED: the schema's fields in order, each with its lane,
and nothing beyond the fields. The records are those that name fields of the schema, each at most once, in any order,
and the schema's names are distinct. R9 has records in schema order: that one in another order is read by name, and
what the records left out here mean, are the model's choices (log 12). -/
def Obligations.WrittenRecordsSetTheNamedLanes : Prop :=
  ∀ (known : Tag → Option Schema) (t : Tag) (S : Schema), known t = some S → ValidSchema S → namesDistinct S = true →
    (∀ record : List (String × Word), (record.map Prod.fst).Nodup →
      (∀ e ∈ record, e.1 ∈ S.map FieldSpec.name) →
      ∃ lanes, (AsmCommand.encode t.code record).assemble known = some (.encode t.code lanes) ∧
        ∀ (k : Nat) (hk : k < 32),
          (∀ f v, S[k]? = some f → (f.name, v) ∈ record → lanes[k] = v) ∧
          (∀ f, S[k]? = some f → f.name ∉ record.map Prod.fst → lanes[k] = 0) ∧
          (S.length ≤ k → lanes[k] = 0)) ∧
    ∀ lanes : Lanes, (recordOfLanes S lanes).length = S.length ∧
      ∀ (k : Nat) (hk : k < 32) (f : FieldSpec), S[k]? = some f →
        (recordOfLanes S lanes)[k]? = some (f.name, lanes[k])
end

