-- ==== Sys2Proof/Laws/State.lean ====
section
/-! SUPPORT. What each named update of the state leaves in each field. -/

namespace Sys2Proof.Machine

/-! ## answer -/

section Answer
variable (s : State) (r : Response)

@[simp] theorem answer_phase : (s.answer r).phase = s.phase := rfl
@[simp] theorem answer_buildFailed : (s.answer r).buildFailed = s.buildFailed := rfl
@[simp] theorem answer_fault : (s.answer r).fault = s.fault := rfl
@[simp] theorem answer_schemas : (s.answer r).schemas = s.schemas := rfl
@[simp] theorem answer_table : (s.answer r).table = s.table := rfl
@[simp] theorem answer_queues : (s.answer r).chan.queues = s.chan.queues := rfl
@[simp] theorem answer_schedule : (s.answer r).chan.schedule = s.chan.schedule := rfl
@[simp] theorem answer_serving : (s.answer r).chan.serving = s.chan.serving := rfl
@[simp] theorem answer_responses :
    (s.answer r).chan.responses = s.chan.responses ++ [(s.chan.serving, r)] := rfl
@[simp] theorem answer_schemaAt (t : Tag) : (s.answer r).schemaAt t = s.schemaAt t := rfl
@[simp] theorem answer_entryAt (o : Opcode) : (s.answer r).entryAt o = s.entryAt o := rfl
@[simp] theorem answer_statusWord : (s.answer r).statusWord = s.statusWord := rfl

end Answer

/-! ## latchFault -/

section LatchFault
variable (s : State) (c : FaultCause)

@[simp] theorem latchFault_phase : (s.latchFault c).phase = s.phase := rfl
@[simp] theorem latchFault_buildFailed : (s.latchFault c).buildFailed = s.buildFailed := rfl
@[simp] theorem latchFault_fault : (s.latchFault c).fault = some c := rfl
@[simp] theorem latchFault_schemas : (s.latchFault c).schemas = s.schemas := rfl
@[simp] theorem latchFault_table : (s.latchFault c).table = s.table := rfl
@[simp] theorem latchFault_chan : (s.latchFault c).chan = s.chan := rfl
@[simp] theorem latchFault_schemaAt (t : Tag) : (s.latchFault c).schemaAt t = s.schemaAt t := rfl
@[simp] theorem latchFault_entryAt (o : Opcode) : (s.latchFault c).entryAt o = s.entryAt o := rfl

end LatchFault

/-! ## putSchema -/

section PutSchema
variable (s : State) (t : Tag) (fields : Schema)

@[simp] theorem putSchema_phase : (s.putSchema t fields).phase = s.phase := rfl
@[simp] theorem putSchema_buildFailed : (s.putSchema t fields).buildFailed = s.buildFailed := rfl
@[simp] theorem putSchema_fault : (s.putSchema t fields).fault = s.fault := rfl
@[simp] theorem putSchema_table : (s.putSchema t fields).table = s.table := rfl
@[simp] theorem putSchema_chan : (s.putSchema t fields).chan = s.chan := rfl
@[simp] theorem putSchema_entryAt (o : Opcode) : (s.putSchema t fields).entryAt o = s.entryAt o := rfl

/-- A slot reads back as written, and no other slot changes. -/
theorem putSchema_schemaAt (u : Tag) :
    (s.putSchema t fields).schemaAt u = if u = t then some fields else s.schemaAt u := by
  cases t <;> cases u <;> rfl

end PutSchema

/-! ## putEntry -/

section PutEntry
variable (s : State) (o : Opcode) (t : Tag)

@[simp] theorem putEntry_phase : (s.putEntry o t).phase = s.phase := rfl
@[simp] theorem putEntry_buildFailed : (s.putEntry o t).buildFailed = s.buildFailed := rfl
@[simp] theorem putEntry_fault : (s.putEntry o t).fault = s.fault := rfl
@[simp] theorem putEntry_schemas : (s.putEntry o t).schemas = s.schemas := rfl
@[simp] theorem putEntry_chan : (s.putEntry o t).chan = s.chan := rfl
@[simp] theorem putEntry_schemaAt (u : Tag) : (s.putEntry o t).schemaAt u = s.schemaAt u := rfl

/-- An entry reads back as written, and no other entry changes. -/
theorem putEntry_entryAt (p : Opcode) :
    (s.putEntry o t).entryAt p = if p = o then some t else s.entryAt p := by
  unfold State.entryAt State.putEntry
  rw [Vector.getElem_set]
  by_cases h : p = o
  · simp [h]
  · have : o.toNat ≠ p.toNat := fun e => h (BitVec.eq_of_toNat_eq e.symm)
    simp [h, this]

end PutEntry

/-! ## popSlot and reset -/

section Rest
variable (s : State)

@[simp] theorem popSlot_phase : s.popSlot.phase = s.phase := rfl
@[simp] theorem popSlot_buildFailed : s.popSlot.buildFailed = s.buildFailed := rfl
@[simp] theorem popSlot_fault : s.popSlot.fault = s.fault := rfl
@[simp] theorem popSlot_schemas : s.popSlot.schemas = s.schemas := rfl
@[simp] theorem popSlot_table : s.popSlot.table = s.table := rfl
@[simp] theorem popSlot_queues : s.popSlot.chan.queues = s.chan.queues := rfl
@[simp] theorem popSlot_schedule : s.popSlot.chan.schedule = s.chan.schedule.tail := rfl
@[simp] theorem popSlot_serving : s.popSlot.chan.serving = s.chan.serving := rfl
@[simp] theorem popSlot_responses : s.popSlot.chan.responses = s.chan.responses := rfl
@[simp] theorem popSlot_schemaAt (t : Tag) : s.popSlot.schemaAt t = s.schemaAt t := rfl
@[simp] theorem popSlot_entryAt (o : Opcode) : s.popSlot.entryAt o = s.entryAt o := rfl

@[simp] theorem resetFor_queues (n : Nat) (h : 1 ≤ n) : (State.resetFor n h).chan.queues = List.replicate n [] := rfl

@[simp] theorem reset_schemaAt (t : Tag) : State.reset.schemaAt t = none := by cases t <;> rfl

@[simp] theorem reset_entryAt (o : Opcode) : State.reset.entryAt o = none := by
  simp [State.entryAt, State.reset, State.resetFor]

@[simp] theorem resetEvent_phase (p : Option Nat) : (resetEvent p s).phase = .uninit := rfl
@[simp] theorem resetEvent_buildFailed (p : Option Nat) : (resetEvent p s).buildFailed = false := rfl
@[simp] theorem resetEvent_fault (p : Option Nat) : (resetEvent p s).fault = none := rfl
@[simp] theorem resetEvent_schemaAt (p : Option Nat) (t : Tag) : (resetEvent p s).schemaAt t = none :=
  reset_schemaAt t
@[simp] theorem resetEvent_entryAt (p : Option Nat) (o : Opcode) : (resetEvent p s).entryAt o = none :=
  reset_entryAt o

end Rest

end Sys2Proof.Machine
end

