-- ==== Sys2Proof/Laws/Channel.lean ====
section
/-! SUPPORT. The channel: what taking a request does to the queues, when one is found, and what a step can be. -/

namespace Sys2Proof.Machine

/-- A request is taken from a requester exactly when it is the head of that requester's queue. -/
theorem takeRequest_eq_some {queues : List (List Request)} {q : Nat} {x : Taken} :
    takeRequest queues q = some x ↔
      ∃ rest, queues[q]? = some (x.2.1 :: rest) ∧ x.1 = q ∧ x.2.2 = queues.set q rest := by
  obtain ⟨q', r, qs⟩ := x
  unfold takeRequest
  split
  · rename_i r' rest h
    simp only [Option.some.injEq, Prod.mk.injEq, h, List.cons.injEq]
    constructor
    · rintro ⟨rfl, rfl, rfl⟩; exact ⟨rest, ⟨rfl, rfl⟩, rfl, rfl⟩
    · rintro ⟨rest', ⟨rfl, rfl⟩, rfl, rfl⟩; exact ⟨rfl, rfl, rfl⟩
  · rename_i h
    simp only [reduceCtorEq, false_iff]
    rintro ⟨rest, h', -⟩
    exact h _ _ h'

/-- The lowest-numbered requester with a request has one, and every lower one has none. -/
theorem firstPending_eq_some {queues : List (List Request)} {q : Nat} (h : firstPending queues = some q) :
    (∃ r rest, queues[q]? = some (r :: rest)) ∧ ∀ p < q, queues[p]? = some [] := by
  induction queues generalizing q with
  | nil => simp [firstPending] at h
  | cons l queues ih =>
    cases l with
    | cons r rest =>
      obtain rfl : 0 = q := by simpa [firstPending] using h
      exact ⟨⟨r, rest, rfl⟩, by simp⟩
    | nil =>
      obtain ⟨p, hp, rfl⟩ : ∃ p, firstPending queues = some p ∧ p + 1 = q := by
        simpa [firstPending] using h
      obtain ⟨hq, hlow⟩ := ih hp
      refine ⟨by simpa using hq, fun k hk => ?_⟩
      cases k with
      | zero => rfl
      | succ k => simpa using hlow k (by omega)

/-- No requester has a request exactly when every queue is empty. -/
theorem firstPending_eq_none {queues : List (List Request)} :
    firstPending queues = none ↔ ∀ l ∈ queues, l = [] := by
  induction queues with
  | nil => simp [firstPending]
  | cons l queues ih => cases l <;> simp [firstPending, ih]

/-- Arbitration takes the head of one requester's queue. -/
theorem arbitrate_eq_some {wanted : Option Nat} {queues : List (List Request)} {x : Taken}
    (h : arbitrate wanted queues = some x) :
    ∃ rest, queues[x.1]? = some (x.2.1 :: rest) ∧ x.2.2 = queues.set x.1 rest := by
  have key : ∀ q, takeRequest queues q = some x →
      ∃ rest, queues[x.1]? = some (x.2.1 :: rest) ∧ x.2.2 = queues.set x.1 rest := by
    intro q hq
    obtain ⟨rest, h1, rfl, h2⟩ := takeRequest_eq_some.1 hq
    exact ⟨rest, h1, h2⟩
  unfold arbitrate at h
  obtain h | ⟨-, h⟩ := Option.or_eq_some_iff.1 h
  · obtain ⟨q, -, hq⟩ := Option.bind_eq_some_iff.1 h
    exact key q hq
  · obtain ⟨q, -, hq⟩ := Option.bind_eq_some_iff.1 h
    exact key q hq

/-- Arbitration finds nothing exactly when no requester has a request. -/
theorem arbitrate_eq_none {wanted : Option Nat} {queues : List (List Request)} :
    arbitrate wanted queues = none ↔ ∀ l ∈ queues, l = [] := by
  rw [← firstPending_eq_none]
  constructor
  · intro h
    obtain ⟨-, h⟩ := Option.or_eq_none_iff.1 h
    cases hf : firstPending queues with
    | none => rfl
    | some q =>
      obtain ⟨⟨r, rest, hq⟩, -⟩ := firstPending_eq_some hf
      have : takeRequest queues q = some (q, r, queues.set q rest) := by simp [takeRequest, hq]
      simp [hf, this] at h
  · intro hf
    have hall := firstPending_eq_none.1 hf
    refine Option.or_eq_none_iff.2 ⟨?_, by simp [hf]⟩
    cases wanted with
    | none => rfl
    | some q =>
      show takeRequest queues q = none
      cases hq : takeRequest queues q with
      | none => rfl
      | some x =>
        obtain ⟨rest, h1, -, -⟩ := takeRequest_eq_some.1 hq
        exact absurd (hall _ (List.mem_of_getElem? h1)) (by simp)

/-- Issuing adds no requester but the one that issues. -/
theorem changeQueue_length (change : List Request → List Request) (q : Nat) (queues : List (List Request)) :
    (changeQueue change q queues).length = max queues.length (q + 1) := by
  induction q generalizing queues with
  | zero => cases queues <;> simp [changeQueue]
  | succ q ih => cases queues <;> simp [changeQueue, ih]

theorem issue_nReq (s : State) (q : Nat) (r : Request) : (s.issue q r).nReq = max s.nReq (q + 1) :=
  changeQueue_length _ q _

theorem resetEvent_nReq (p : Option Nat) (s : State) : (resetEvent p s).nReq = s.nReq := by
  cases p <;> simp [State.nReq, resetEvent, abandon]

/-- The state in which a request taken from the channel is performed. -/
def State.serving (s : State) (x : Taken) : State := { s with chan := s.chan.serve x.1 x.2.2 }

section Serving
variable (s : State) (x : Taken)

@[simp] theorem serving_phase : (s.serving x).phase = s.phase := rfl
@[simp] theorem serving_buildFailed : (s.serving x).buildFailed = s.buildFailed := rfl
@[simp] theorem serving_fault : (s.serving x).fault = s.fault := rfl
@[simp] theorem serving_schemas : (s.serving x).schemas = s.schemas := rfl
@[simp] theorem serving_table : (s.serving x).table = s.table := rfl
@[simp] theorem serving_queues : (s.serving x).chan.queues = x.2.2 := rfl
@[simp] theorem serving_schedule : (s.serving x).chan.schedule = s.chan.schedule := rfl
@[simp] theorem serving_serving : (s.serving x).chan.serving = x.1 := rfl
@[simp] theorem serving_responses : (s.serving x).chan.responses = s.chan.responses := rfl
@[simp] theorem serving_schemaAt (t : Tag) : (s.serving x).schemaAt t = s.schemaAt t := rfl
@[simp] theorem serving_entryAt (o : Opcode) : (s.serving x).entryAt o = s.entryAt o := rfl

end Serving

/-- Everything a step is: a reset, a wait with nothing on the channel, or one request performed. -/
theorem step_cases (s : State) :
    (∃ p rest, s.chan.schedule = .reset p :: rest ∧ step s = .next (resetEvent p s.popSlot)) ∨
      ((∀ l ∈ s.chan.queues, l = []) ∧ (∀ p rest, s.chan.schedule ≠ .reset p :: rest) ∧
        step s = .next s.popSlot) ∨
      (∃ wanted x, arbitrate wanted s.chan.queues = some x ∧ (∀ p rest, s.chan.schedule ≠ .reset p :: rest) ∧
        step s = exec (decode x.2.1) (s.popSlot.serving x)) := by
  have serve : ∀ wanted, (∀ p rest, s.chan.schedule ≠ .reset p :: rest) →
      nextEvent s = serveNext wanted s.popSlot →
      ((∀ l ∈ s.chan.queues, l = []) ∧ (∀ p rest, s.chan.schedule ≠ .reset p :: rest) ∧
        step s = .next s.popSlot) ∨
      (∃ wanted x, arbitrate wanted s.chan.queues = some x ∧ (∀ p rest, s.chan.schedule ≠ .reset p :: rest) ∧
        step s = exec (decode x.2.1) (s.popSlot.serving x)) := by
    intro wanted hr he
    cases ha : arbitrate wanted s.chan.queues with
    | none =>
      refine .inl ⟨arbitrate_eq_none.1 ha, hr, ?_⟩
      simp [step, he, serveNext, ha]
    | some x =>
      refine .inr ⟨wanted, x, ha, hr, ?_⟩
      simp [step, he, serveNext, ha, State.serving]
  cases hs : s.chan.schedule with
  | nil =>
    refine .inr ?_
    have hpop : s.popSlot = s := by
      show { s with chan := { s.chan with schedule := s.chan.schedule.tail } } = s
      rw [hs, List.tail_nil, ← hs]
    have := serve none (by simp [hs]) (by simp [nextEvent, hs, hpop])
    simpa [hs] using this
  | cons slot rest =>
    cases slot with
    | serve q =>
      have := serve (some q) (by simp [hs]) (by simp [nextEvent, hs])
      exact .inr (by simpa [hs] using this)
    | reset p => exact .inl ⟨p, rest, rfl, by simp [step, nextEvent, hs]⟩

end Sys2Proof.Machine
end

