-- ==== Sys2Proof/Laws/Codec.lean ====
section
/-! SUPPORT. The Codec in numbers: what the mask, one field, the loop of decode and the loop of encode amount to
as arithmetic on naturals (R7, R130 to R132). -/

namespace Sys2Proof.Machine

theorem mask_toNat (width : Nat) : (mask width).toNat = 2 ^ min width 32 - 1 := by
  rw [mask, BitVec.toNat_ofNat]
  rcases Nat.le_total width 32 with h | h
  · rw [Nat.min_eq_left h]
    have := Nat.pow_le_pow_right (n := 2) (by omega) h
    have := Nat.two_pow_pos width
    exact Nat.mod_eq_of_lt (by omega)
  · rw [Nat.min_eq_right h]
    obtain ⟨d, rfl⟩ := Nat.exists_eq_add_of_le h
    have := Nat.two_pow_pos d
    rw [Nat.pow_add]
    omega

/-- Masking a value keeps its low bits (R132: "low `width` bits kept"). -/
theorem and_mask_toNat (v : Word) (width : Nat) : (v &&& mask width).toNat = v.toNat % 2 ^ width := by
  rw [BitVec.toNat_and, mask_toNat, Nat.and_two_pow_sub_one_eq_mod]
  rcases Nat.le_total width 32 with h | h
  · rw [Nat.min_eq_left h]
  · have := Nat.pow_le_pow_right (n := 2) (by omega) h
    rw [Nat.min_eq_right h, Nat.mod_eq_of_lt v.isLt, Nat.mod_eq_of_lt (by omega)]

theorem fieldAt_toNat (word : Word) (cursor width : Nat) :
    (fieldAt word cursor width).toNat = word.toNat / 2 ^ cursor % 2 ^ width := by
  rw [fieldAt, and_mask_toNat, BitVec.toNat_ushiftRight, Nat.shiftRight_eq_div_pow]

@[simp] theorem fieldValues_length (word : Word) (cursor : Nat) (schema : Schema) :
    (fieldValues word cursor schema).length = schema.length := by
  induction schema generalizing cursor with
  | nil => rfl
  | cons f rest ih => simp [fieldValues, ih]

@[simp] theorem fieldOffset_zero (schema : Schema) : fieldOffset schema 0 = 0 := by simp [fieldOffset]

@[simp] theorem fieldOffset_cons (f : FieldSpec) (rest : Schema) (k : Nat) :
    fieldOffset (f :: rest) (k + 1) = f.width + fieldOffset rest k := by simp [fieldOffset]

/-- The k-th value of decode's loop is the field at the cursor moved up by the fields below it. -/
theorem fieldValues_getElem? (word : Word) (cursor : Nat) (schema : Schema) (k : Nat) :
    (fieldValues word cursor schema)[k]? =
      (schema[k]?).map fun f => fieldAt word (cursor + fieldOffset schema k) f.width := by
  induction schema generalizing cursor k with
  | nil => simp [fieldValues]
  | cons f rest ih =>
    cases k with
    | zero => simp [fieldValues]
    | succ k => simp [fieldValues, ih, Nat.add_assoc]

theorem decodeRecord_getElem (word : Word) (schema : Schema) (k : Nat) (h : k < 32) :
    (decodeRecord word schema)[k] =
      ((schema[k]?).map fun f => fieldAt word (fieldOffset schema k) f.width).getD 0 := by
  simp [decodeRecord, List.getD, fieldValues_getElem?]

/-- One turn of encode's loop adds its field to fields that begin above it. -/
theorem packFields_cons_of_dvd (cursor : Nat) (v : Word) (lanes : List Word) (f : FieldSpec) (rest : Schema)
    (h : cursor + f.width ≤ 32) (hd : 2 ^ (cursor + f.width) ∣ (packFields (cursor + f.width) lanes rest).toNat) :
    (packFields cursor (v :: lanes) (f :: rest)).toNat =
      v.toNat % 2 ^ f.width * 2 ^ cursor + (packFields (cursor + f.width) lanes rest).toNat := by
  obtain ⟨m, hm⟩ := hd
  have hlt : v.toNat % 2 ^ f.width * 2 ^ cursor < 2 ^ (cursor + f.width) := by
    rw [Nat.pow_add, Nat.mul_comm]
    exact Nat.mul_lt_mul_of_pos_left (Nat.mod_lt _ (Nat.two_pow_pos _)) (Nat.two_pow_pos _)
  have hle := Nat.pow_le_pow_right (n := 2) (by omega) h
  rw [packFields, BitVec.toNat_or, BitVec.toNat_shiftLeft, and_mask_toNat, Nat.shiftLeft_eq,
    Nat.mod_eq_of_lt (by omega), hm, Nat.or_comm, ← Nat.two_pow_add_eq_or_of_lt hlt]
  omega

/-- Fields packed from a cursor on leave every bit below the cursor 0. -/
theorem packFields_dvd (schema : Schema) (cursor : Nat) (lanes : List Word)
    (h : cursor + (schema.map FieldSpec.width).sum ≤ 32) : 2 ^ cursor ∣ (packFields cursor lanes schema).toNat := by
  induction schema generalizing cursor lanes with
  | nil => cases lanes <;> simp [packFields]
  | cons f rest ih =>
    cases lanes with
    | nil => simp [packFields]
    | cons v lanes =>
      simp only [List.map_cons, List.sum_cons] at h
      have hd := ih (cursor + f.width) lanes (by omega)
      rw [packFields_cons_of_dvd cursor v lanes f rest (by omega) hd]
      exact Nat.dvd_add (Nat.dvd_mul_left _ _)
        (Nat.dvd_trans (Nat.pow_dvd_pow 2 (Nat.le_add_right cursor f.width)) hd)

/-- The loop of encode as a sum, for fields that fit the word (R132: "the OR of the fields equals their sum"). -/
theorem packFields_cons_toNat (cursor : Nat) (v : Word) (lanes : List Word) (f : FieldSpec) (rest : Schema)
    (h : cursor + ((f :: rest).map FieldSpec.width).sum ≤ 32) :
    (packFields cursor (v :: lanes) (f :: rest)).toNat =
      v.toNat % 2 ^ f.width * 2 ^ cursor + (packFields (cursor + f.width) lanes rest).toNat := by
  simp only [List.map_cons, List.sum_cons] at h
  exact packFields_cons_of_dvd cursor v lanes f rest (by omega) (packFields_dvd rest _ lanes (by omega))

/-- A valid schema has no more fields than its widths have bits. -/
theorem length_le_widthSum {schema : Schema} (h : ∀ f ∈ schema, 1 ≤ f.width) :
    schema.length ≤ (schema.map FieldSpec.width).sum := by
  induction schema with
  | nil => simp
  | cons f rest ih =>
    have hrest := ih fun g hg => h g (List.mem_cons_of_mem f hg)
    have hf := h f List.mem_cons_self
    simp only [List.map_cons, List.sum_cons, List.length_cons]
    omega

/-- The lanes of a decoded record: the fields' values, then zeros (R131). -/
theorem decodeRecord_toList (word : Word) (schema : Schema) (h : schema.length ≤ 32) :
    (decodeRecord word schema).toList = fieldValues word 0 schema ++ List.replicate (32 - schema.length) 0 := by
  apply List.ext_getElem?
  intro k
  rcases Nat.lt_or_ge k 32 with hk | hk
  · rw [List.getElem?_eq_getElem (by simpa using hk), Vector.getElem_toList, decodeRecord_getElem]
    rcases Nat.lt_or_ge k schema.length with h1 | h1
    · rw [List.getElem?_append_left (by simpa using h1), fieldValues_getElem?]
      simp [h1]
    · rw [List.getElem?_append_right (by simpa using h1), List.getElem?_eq_none h1]
      simp [List.getElem?_replicate]
      omega
  · rw [List.getElem?_eq_none (by simpa using hk), List.getElem?_eq_none (by simp; omega)]

end Sys2Proof.Machine
end

