-- ==== Sys2Proof/Laws/Decode.lean ====
section
/-! SUPPORT. The decoder and the layouts: a word is put together again from the fields it is taken apart into, a
field is read back from the layout it was put in, and the rows of rowOfWord one by one. -/

namespace Sys2Proof

/-- The R layout puts a word's fields back where they were (R72). -/
theorem wordR_of_fields (w : Word) :
    wordR (opcodeOf w) (w.extractLsb' 7 5) (w.extractLsb' 12 3) (w.extractLsb' 15 5) (w.extractLsb' 20 5) (w.extractLsb' 25 7) = w := by
  apply BitVec.eq_of_getLsbD_eq
  intro i hi
  simp only [wordR, opcodeOf, BitVec.getLsbD_append, BitVec.getLsbD_extractLsb']
  interval_cases i <;> simp

/-- The I layout puts a word's fields back where they were (R72). -/
theorem wordI_of_fields (w : Word) :
    wordI (opcodeOf w) (w.extractLsb' 7 5) (w.extractLsb' 12 3) (w.extractLsb' 15 5) (w.extractLsb' 20 12) = w := by
  apply BitVec.eq_of_getLsbD_eq
  intro i hi
  simp only [wordI, opcodeOf, BitVec.getLsbD_append, BitVec.getLsbD_extractLsb']
  interval_cases i <;> simp

/-- The S layout puts a word's fields back where they were (R72). -/
theorem wordS_of_fields (w : Word) :
    wordS (opcodeOf w) (w.extractLsb' 7 5) (w.extractLsb' 12 3) (w.extractLsb' 15 5) (w.extractLsb' 20 5) (w.extractLsb' 25 7) = w := by
  apply BitVec.eq_of_getLsbD_eq
  intro i hi
  simp only [wordS, opcodeOf, BitVec.getLsbD_append, BitVec.getLsbD_extractLsb']
  interval_cases i <;> simp

/-- The B layout puts a word's fields back where they were (R72). -/
theorem wordB_of_fields (w : Word) :
    wordB (opcodeOf w) (w.extractLsb' 7 1) (w.extractLsb' 8 4) (w.extractLsb' 12 3) (w.extractLsb' 15 5) (w.extractLsb' 20 5) (w.extractLsb' 25 6) (w.extractLsb' 31 1) = w := by
  apply BitVec.eq_of_getLsbD_eq
  intro i hi
  simp only [wordB, opcodeOf, BitVec.getLsbD_append, BitVec.getLsbD_extractLsb']
  interval_cases i <;> simp

/-- The U layout puts a word's fields back where they were (R72). -/
theorem wordU_of_fields (w : Word) :
    wordU (opcodeOf w) (w.extractLsb' 7 5) (w.extractLsb' 12 20) = w := by
  apply BitVec.eq_of_getLsbD_eq
  intro i hi
  simp only [wordU, opcodeOf, BitVec.getLsbD_append, BitVec.getLsbD_extractLsb']
  interval_cases i <;> simp

/-- The J layout puts a word's fields back where they were (R72). -/
theorem wordJ_of_fields (w : Word) :
    wordJ (opcodeOf w) (w.extractLsb' 7 5) (w.extractLsb' 12 8) (w.extractLsb' 20 1) (w.extractLsb' 21 10) (w.extractLsb' 31 1) = w := by
  apply BitVec.eq_of_getLsbD_eq
  intro i hi
  simp only [wordJ, opcodeOf, BitVec.getLsbD_append, BitVec.getLsbD_extractLsb']
  interval_cases i <;> simp

/-- A word is its opcode and the 25 bits above it (R71). -/
theorem wordOther_of_fields (w : Word) : wordOther (opcodeOf w) (w.extractLsb' 7 25) = w := by
  apply BitVec.eq_of_getLsbD_eq
  intro i hi
  simp only [wordOther, opcodeOf, BitVec.getLsbD_append, BitVec.getLsbD_extractLsb']
  interval_cases i <;> simp

/-- Every field of the R layout reads back as it was put in (R72). -/
theorem fields_of_wordR (opcode : Opcode) (rd : BitVec 5) (funct3 : BitVec 3) (rs1 : BitVec 5) (rs2 : BitVec 5) (funct7 : BitVec 7) :
    opcodeOf (wordR opcode rd funct3 rs1 rs2 funct7) = opcode ∧
      (wordR opcode rd funct3 rs1 rs2 funct7).extractLsb' 7 5 = rd ∧
      (wordR opcode rd funct3 rs1 rs2 funct7).extractLsb' 12 3 = funct3 ∧
      (wordR opcode rd funct3 rs1 rs2 funct7).extractLsb' 15 5 = rs1 ∧
      (wordR opcode rd funct3 rs1 rs2 funct7).extractLsb' 20 5 = rs2 ∧
      (wordR opcode rd funct3 rs1 rs2 funct7).extractLsb' 25 7 = funct7 := by
  refine ⟨?_, ?_, ?_, ?_, ?_, ?_⟩ <;>
    (apply BitVec.eq_of_getLsbD_eq
     intro i hi
     simp only [wordR, opcodeOf, BitVec.getLsbD_append, BitVec.getLsbD_extractLsb']
     interval_cases i <;> simp)

/-- Every field of the I layout reads back as it was put in (R72). -/
theorem fields_of_wordI (opcode : Opcode) (rd : BitVec 5) (funct3 : BitVec 3) (rs1 : BitVec 5) (imm0 : BitVec 12) :
    opcodeOf (wordI opcode rd funct3 rs1 imm0) = opcode ∧
      (wordI opcode rd funct3 rs1 imm0).extractLsb' 7 5 = rd ∧
      (wordI opcode rd funct3 rs1 imm0).extractLsb' 12 3 = funct3 ∧
      (wordI opcode rd funct3 rs1 imm0).extractLsb' 15 5 = rs1 ∧
      (wordI opcode rd funct3 rs1 imm0).extractLsb' 20 12 = imm0 := by
  refine ⟨?_, ?_, ?_, ?_, ?_⟩ <;>
    (apply BitVec.eq_of_getLsbD_eq
     intro i hi
     simp only [wordI, opcodeOf, BitVec.getLsbD_append, BitVec.getLsbD_extractLsb']
     interval_cases i <;> simp)

/-- Every field of the S layout reads back as it was put in (R72). -/
theorem fields_of_wordS (opcode : Opcode) (imm0 : BitVec 5) (funct3 : BitVec 3) (rs1 : BitVec 5) (rs2 : BitVec 5) (imm1 : BitVec 7) :
    opcodeOf (wordS opcode imm0 funct3 rs1 rs2 imm1) = opcode ∧
      (wordS opcode imm0 funct3 rs1 rs2 imm1).extractLsb' 7 5 = imm0 ∧
      (wordS opcode imm0 funct3 rs1 rs2 imm1).extractLsb' 12 3 = funct3 ∧
      (wordS opcode imm0 funct3 rs1 rs2 imm1).extractLsb' 15 5 = rs1 ∧
      (wordS opcode imm0 funct3 rs1 rs2 imm1).extractLsb' 20 5 = rs2 ∧
      (wordS opcode imm0 funct3 rs1 rs2 imm1).extractLsb' 25 7 = imm1 := by
  refine ⟨?_, ?_, ?_, ?_, ?_, ?_⟩ <;>
    (apply BitVec.eq_of_getLsbD_eq
     intro i hi
     simp only [wordS, opcodeOf, BitVec.getLsbD_append, BitVec.getLsbD_extractLsb']
     interval_cases i <;> simp)

/-- Every field of the B layout reads back as it was put in (R72). -/
theorem fields_of_wordB (opcode : Opcode) (imm0 : BitVec 1) (imm1 : BitVec 4) (funct3 : BitVec 3) (rs1 : BitVec 5) (rs2 : BitVec 5) (imm2 : BitVec 6) (imm3 : BitVec 1) :
    opcodeOf (wordB opcode imm0 imm1 funct3 rs1 rs2 imm2 imm3) = opcode ∧
      (wordB opcode imm0 imm1 funct3 rs1 rs2 imm2 imm3).extractLsb' 7 1 = imm0 ∧
      (wordB opcode imm0 imm1 funct3 rs1 rs2 imm2 imm3).extractLsb' 8 4 = imm1 ∧
      (wordB opcode imm0 imm1 funct3 rs1 rs2 imm2 imm3).extractLsb' 12 3 = funct3 ∧
      (wordB opcode imm0 imm1 funct3 rs1 rs2 imm2 imm3).extractLsb' 15 5 = rs1 ∧
      (wordB opcode imm0 imm1 funct3 rs1 rs2 imm2 imm3).extractLsb' 20 5 = rs2 ∧
      (wordB opcode imm0 imm1 funct3 rs1 rs2 imm2 imm3).extractLsb' 25 6 = imm2 ∧
      (wordB opcode imm0 imm1 funct3 rs1 rs2 imm2 imm3).extractLsb' 31 1 = imm3 := by
  refine ⟨?_, ?_, ?_, ?_, ?_, ?_, ?_, ?_⟩ <;>
    (apply BitVec.eq_of_getLsbD_eq
     intro i hi
     simp only [wordB, opcodeOf, BitVec.getLsbD_append, BitVec.getLsbD_extractLsb']
     interval_cases i <;> simp)

/-- Every field of the U layout reads back as it was put in (R72). -/
theorem fields_of_wordU (opcode : Opcode) (rd : BitVec 5) (imm0 : BitVec 20) :
    opcodeOf (wordU opcode rd imm0) = opcode ∧
      (wordU opcode rd imm0).extractLsb' 7 5 = rd ∧
      (wordU opcode rd imm0).extractLsb' 12 20 = imm0 := by
  refine ⟨?_, ?_, ?_⟩ <;>
    (apply BitVec.eq_of_getLsbD_eq
     intro i hi
     simp only [wordU, opcodeOf, BitVec.getLsbD_append, BitVec.getLsbD_extractLsb']
     interval_cases i <;> simp)

/-- Every field of the J layout reads back as it was put in (R72). -/
theorem fields_of_wordJ (opcode : Opcode) (rd : BitVec 5) (imm0 : BitVec 8) (imm1 : BitVec 1) (imm2 : BitVec 10) (imm3 : BitVec 1) :
    opcodeOf (wordJ opcode rd imm0 imm1 imm2 imm3) = opcode ∧
      (wordJ opcode rd imm0 imm1 imm2 imm3).extractLsb' 7 5 = rd ∧
      (wordJ opcode rd imm0 imm1 imm2 imm3).extractLsb' 12 8 = imm0 ∧
      (wordJ opcode rd imm0 imm1 imm2 imm3).extractLsb' 20 1 = imm1 ∧
      (wordJ opcode rd imm0 imm1 imm2 imm3).extractLsb' 21 10 = imm2 ∧
      (wordJ opcode rd imm0 imm1 imm2 imm3).extractLsb' 31 1 = imm3 := by
  refine ⟨?_, ?_, ?_, ?_, ?_, ?_⟩ <;>
    (apply BitVec.eq_of_getLsbD_eq
     intro i hi
     simp only [wordJ, opcodeOf, BitVec.getLsbD_append, BitVec.getLsbD_extractLsb']
     interval_cases i <;> simp)

/-- Every field of the Other layout reads back as it was put in (R72). -/
theorem fields_of_wordOther (opcode : Opcode) (upper : BitVec 25) :
    opcodeOf (wordOther opcode upper) = opcode ∧
      (wordOther opcode upper).extractLsb' 7 25 = upper := by
  refine ⟨?_, ?_⟩ <;>
    (apply BitVec.eq_of_getLsbD_eq
     intro i hi
     simp only [wordOther, opcodeOf, BitVec.getLsbD_append, BitVec.getLsbD_extractLsb']
     interval_cases i <;> simp)

/-- The rows one by one: what holds of each row of a word holds of the word's row. -/
theorem rowOfWord_cases (w : Word) {P : Instr → Prop}
    (jWord : opcodeOf w = 0x3C → P (.jWord (w.extractLsb' 7 5) (w.extractLsb' 12 8) (w.extractLsb' 20 1) (w.extractLsb' 21 10) (w.extractLsb' 31 1)))
    (load : opcodeOf w = 0x03 → P (.load (w.extractLsb' 7 5) (w.extractLsb' 12 3) (w.extractLsb' 15 5) (w.extractLsb' 20 12)))
    (miscMem : opcodeOf w = 0x0F → P (.miscMem (w.extractLsb' 7 5) (w.extractLsb' 12 3) (w.extractLsb' 15 5) (w.extractLsb' 20 12)))
    (opImm : opcodeOf w = 0x13 → P (.opImm (w.extractLsb' 7 5) (w.extractLsb' 12 3) (w.extractLsb' 15 5) (w.extractLsb' 20 12)))
    (auipc : opcodeOf w = 0x17 → P (.auipc (w.extractLsb' 7 5) (w.extractLsb' 12 20)))
    (store : opcodeOf w = 0x23 → P (.store (w.extractLsb' 7 5) (w.extractLsb' 12 3) (w.extractLsb' 15 5) (w.extractLsb' 20 5) (w.extractLsb' 25 7)))
    (op : opcodeOf w = 0x33 → P (.op (w.extractLsb' 7 5) (w.extractLsb' 12 3) (w.extractLsb' 15 5) (w.extractLsb' 20 5) (w.extractLsb' 25 7)))
    (lui : opcodeOf w = 0x37 → P (.lui (w.extractLsb' 7 5) (w.extractLsb' 12 20)))
    (branch : opcodeOf w = 0x63 → P (.branch (w.extractLsb' 7 1) (w.extractLsb' 8 4) (w.extractLsb' 12 3) (w.extractLsb' 15 5) (w.extractLsb' 20 5) (w.extractLsb' 25 6) (w.extractLsb' 31 1)))
    (jalr : opcodeOf w = 0x67 → P (.jalr (w.extractLsb' 7 5) (w.extractLsb' 12 3) (w.extractLsb' 15 5) (w.extractLsb' 20 12)))
    (jal : opcodeOf w = 0x6F → P (.jal (w.extractLsb' 7 5) (w.extractLsb' 12 8) (w.extractLsb' 20 1) (w.extractLsb' 21 10) (w.extractLsb' 31 1)))
    (system : opcodeOf w = 0x73 → P (.system (w.extractLsb' 7 5) (w.extractLsb' 12 3) (w.extractLsb' 15 5) (w.extractLsb' 20 12)))
    (other : Config.rowOpcodes.contains (opcodeOf w) = false → P (.unrecognized (opcodeOf w) (w.extractLsb' 7 25))) :
    P (rowOfWord w) := by
  unfold rowOfWord
  by_cases h0 : opcodeOf w = 0x3C
  · rw [if_pos h0]; exact jWord h0
  rw [if_neg h0]
  by_cases h1 : opcodeOf w = 0x03
  · rw [if_pos h1]; exact load h1
  rw [if_neg h1]
  by_cases h2 : opcodeOf w = 0x0F
  · rw [if_pos h2]; exact miscMem h2
  rw [if_neg h2]
  by_cases h3 : opcodeOf w = 0x13
  · rw [if_pos h3]; exact opImm h3
  rw [if_neg h3]
  by_cases h4 : opcodeOf w = 0x17
  · rw [if_pos h4]; exact auipc h4
  rw [if_neg h4]
  by_cases h5 : opcodeOf w = 0x23
  · rw [if_pos h5]; exact store h5
  rw [if_neg h5]
  by_cases h6 : opcodeOf w = 0x33
  · rw [if_pos h6]; exact op h6
  rw [if_neg h6]
  by_cases h7 : opcodeOf w = 0x37
  · rw [if_pos h7]; exact lui h7
  rw [if_neg h7]
  by_cases h8 : opcodeOf w = 0x63
  · rw [if_pos h8]; exact branch h8
  rw [if_neg h8]
  by_cases h9 : opcodeOf w = 0x67
  · rw [if_pos h9]; exact jalr h9
  rw [if_neg h9]
  by_cases h10 : opcodeOf w = 0x6F
  · rw [if_pos h10]; exact jal h10
  rw [if_neg h10]
  by_cases h11 : opcodeOf w = 0x73
  · rw [if_pos h11]; exact system h11
  rw [if_neg h11]
  refine other ?_
  simpa [Config.rowOpcodes, Config.cfgTest, Config.cfgRV32I] using ⟨h0, h1, h2, h3, h4, h5, h6, h7, h8, h9, h10, h11⟩

end Sys2Proof
end

