-- ==== Sys2Proof/Laws/Ops.lean ====
section
/-! SUPPORT. One lemma for each shared operation of the meanings: what it answers, and when. -/

namespace Sys2Proof.Machine

@[simp] theorem respond_eq_next (r : Response) (s t : State) : respond r s = .next t ↔ t = s.answer r := by
  simp [respond, eq_comm]

@[simp] theorem raiseFault_eq_next (c : FaultCause) (s t : State) :
    raiseFault c s = .next t ↔ t = (s.latchFault c).answer (.fault c) := by
  simp [raiseFault]

theorem unlessHalted_halted {s : State} {c : FaultCause} (h : s.fault = some c) (body : Result) :
    unlessHalted s body = .next (s.answer (.fault c)) := by
  simp [unlessHalted, h, respond]

theorem unlessHalted_running {s : State} (h : s.fault = none) (body : Result) : unlessHalted s body = body := by
  simp [unlessHalted, h]

/-- A command answers a next state past the halted check in two ways only. -/
theorem unlessHalted_next {s t : State} {body : Result} (h : unlessHalted s body = .next t) :
    (∃ c, s.fault = some c ∧ t = s.answer (.fault c)) ∨ (s.fault = none ∧ body = .next t) := by
  cases hf : s.fault with
  | some c =>
    rw [unlessHalted_halted hf] at h
    exact .inl ⟨c, rfl, by simpa using h.symm⟩
  | none =>
    rw [unlessHalted_running hf] at h
    exact .inr ⟨rfl, h⟩

@[simp] theorem Tag.ofCode?_code (t : Tag) : Tag.ofCode? t.code = some t := by cases t <;> rfl

/-- A tag operand names a format exactly when it is that format's code. -/
theorem Tag.ofCode?_eq_some {c : TagCode} {t : Tag} : Tag.ofCode? c = some t ↔ c = t.code := by
  constructor
  · revert c t; decide
  · rintro rfl; exact Tag.ofCode?_code t

/-- A tag operand names no format exactly when it is reserved. -/
theorem Tag.ofCode?_eq_none {c : TagCode} : Tag.ofCode? c = none ↔ c = 6 ∨ c = 7 := by
  revert c; decide

theorem withTag_code (t : Tag) (s : State) (body : Tag → Result) : withTag t.code s body = body t := by
  simp [withTag]

theorem withTag_reserved {c : TagCode} (h : c = 6 ∨ c = 7) (s : State) (body : Tag → Result) :
    withTag c s body = raiseFault .reservedTag s := by
  simp [withTag, Tag.ofCode?_eq_none.2 h]

theorem withTag_next {c : TagCode} {s t : State} {body : Tag → Result} (h : withTag c s body = .next t) :
    ((c = 6 ∨ c = 7) ∧ t = (s.latchFault .reservedTag).answer (.fault .reservedTag)) ∨
      (∃ u : Tag, c = u.code ∧ body u = .next t) := by
  cases hc : Tag.ofCode? c with
  | none =>
    have hr := Tag.ofCode?_eq_none.1 hc
    rw [withTag_reserved hr] at h
    exact .inl ⟨hr, by simpa using h⟩
  | some u =>
    obtain rfl := Tag.ofCode?_eq_some.1 hc
    rw [withTag_code] at h
    exact .inr ⟨u, rfl, h⟩

theorem unlessBuilt_next {s t : State} {body : Result} (h : unlessBuilt s body = .next t) :
    (s.phase = .built ∧ t = (s.latchFault .tableWriteAfterBuilt).answer (.fault .tableWriteAfterBuilt)) ∨
      (s.phase = .uninit ∧ body = .next t) := by
  cases hp : s.phase <;> simp [unlessBuilt, hp] at h <;> simp [h]

theorem withSchema_next {u : Tag} {s t : State} {body : Schema → Result} (h : withSchema u s body = .next t) :
    (s.schemaAt u = none ∧ t = (s.latchFault .schemaUndefined).answer (.fault .schemaUndefined)) ∨
      (∃ schema, s.schemaAt u = some schema ∧ body schema = .next t) := by
  cases hu : s.schemaAt u <;> simp [withSchema, hu] at h <;> simp [h]

/-- Validation accepts a list exactly when it is a valid schema, and then gives it back. -/
theorem validate_eq_ok {fields S : Schema} : validate fields = .ok S ↔ S = fields ∧ ValidSchema fields := by
  unfold validate
  split
  · rename_i h
    simp only [reduceCtorEq, false_iff, not_and]
    exact fun _ hv => hv.nonempty h
  · rename_i hne
    split
    · rename_i hz
      simp only [reduceCtorEq, false_iff, not_and]
      intro _ hv
      obtain ⟨f, hf, h0⟩ := List.any_eq_true.1 hz
      have h1 := hv.positive f hf
      simp at h0
      omega
    · rename_i hz
      split
      · rename_i hs
        simp only [reduceCtorEq, false_iff, not_and]
        exact fun _ hv => hs hv.total
      · rename_i hs
        simp only [Except.ok.injEq]
        have hv : ValidSchema fields := by
          refine ⟨hne, fun f hf => ?_, not_not.1 hs⟩
          have : ¬ f.width = 0 := fun h0 => hz (List.any_eq_true.2 ⟨f, hf, by simp [h0]⟩)
          omega
        exact ⟨fun h => ⟨h.symm, hv⟩, fun h => h.1.symm⟩

/-- The table names a format exactly when some entry does. -/
theorem tableNames_iff {s : State} {t : Tag} : s.tableNames t = true ↔ ∃ o, s.entryAt o = some t := by
  simp only [State.tableNames, List.contains_iff_mem, Vector.mem_toList_iff, State.entryAt]
  constructor
  · intro h
    obtain ⟨k, hk, e⟩ := Vector.getElem_of_mem h
    exact ⟨BitVec.ofNat 7 k, by simpa [BitVec.toNat_ofNat, Nat.mod_eq_of_lt hk] using e⟩
  · rintro ⟨o, e⟩
    exact Vector.mem_of_getElem e

/-- SEAL finds nothing missing exactly when every format the table names has a schema. -/
theorem firstMissing_eq_none {s : State} :
    firstMissing s = none ↔ ∀ o t, s.entryAt o = some t → s.schemaAt t ≠ none := by
  have hall : ∀ t : Tag, t ∈ Config.allTags := fun t => by cases t <;> decide
  simp only [firstMissing, List.find?_eq_none, Bool.and_eq_true, not_and, Option.isNone_iff_eq_none,
    tableNames_iff]
  exact ⟨fun h o t e => h t (hall t) ⟨o, e⟩, fun h t _ ⟨o, e⟩ => h o t e⟩

/-- What SEAL reports missing is named by the table and has no schema. -/
theorem firstMissing_eq_some {s : State} {t : Tag} (h : firstMissing s = some t) :
    (∃ o, s.entryAt o = some t) ∧ s.schemaAt t = none := by
  have := List.find?_some h
  simpa [tableNames_iff] using this

end Sys2Proof.Machine
end

