-- ==== Sys2Proof/Laws/Exec.lean ====
section
/-! SUPPORT. Everything one instruction can do to the state, said once: the cases below are what a meaning may
answer, with the guards under which it does. -/

namespace Sys2Proof.Machine

/-- The instructions that route a word: DISPATCH of it and its row of the word space. -/
def Routes (i : Instr) (w : Word) : Prop := i = .dispatch w ∨ encode i = .word w

/-- The instructions with a tag operand, and the operand. -/
inductive TagOperand : Instr → TagCode → Prop where
  | defineFormat (c : TagCode) (fields : List FieldSpec) : TagOperand (.defineFormat c fields) c
  | registerOpcode (o : Opcode) (c : TagCode) : TagOperand (.registerOpcode o c) c
  | decode (w : Word) (c : TagCode) : TagOperand (.decode w c) c
  | encode (c : TagCode) (lanes : Lanes) : TagOperand (.encode c lanes) c

/-- The faults an instruction raises, with the condition of each (R202). -/
inductive Raises (i : Instr) (s : State) : FaultCause → Prop where
  | illegalCommand (hi : i = .reservedCmd) : Raises i s .illegalCommand
  | reservedTag (c : TagCode) (reserved : c = 6 ∨ c = 7) (hi : TagOperand i c) : Raises i s .reservedTag
  | dispatchBeforeBuilt (w : Word) (hi : Routes i w) (uninit : s.phase = .uninit) :
      Raises i s .dispatchBeforeBuilt
  | registerAfterBuilt (o : Opcode) (c : TagCode) (hi : i = .registerOpcode o c) (built : s.phase = .built) :
      Raises i s .tableWriteAfterBuilt
  | sealAfterBuilt (hi : i = .sealTable) (built : s.phase = .built) : Raises i s .tableWriteAfterBuilt
  | schemaRedefined (t : Tag) (fields : List FieldSpec) (hi : i = .defineFormat t.code fields)
      (taken : s.schemaAt t ≠ none) : Raises i s .schemaRedefined
  | decodeUndefined (w : Word) (t : Tag) (hi : i = .decode w t.code) (empty : s.schemaAt t = none) :
      Raises i s .schemaUndefined
  | encodeUndefined (t : Tag) (lanes : Lanes) (hi : i = .encode t.code lanes) (empty : s.schemaAt t = none) :
      Raises i s .schemaUndefined

/-- The responses an instruction gives while it writes nothing, with the condition of each (R84). -/
inductive Gives (i : Instr) (s : State) : Response → Prop where
  | unrecognized (w : Word) (hi : Routes i w) (running : s.fault = none) (built : s.phase = .built)
      (free : s.entryAt (opcodeOf w) = none) : Gives i s (.unrecognized (opcodeOf w))
  | routed (w : Word) (t : Tag) (schema : Schema) (hi : Routes i w) (running : s.fault = none)
      (built : s.phase = .built) (taken : s.entryAt (opcodeOf w) = some t) (defined : s.schemaAt t = some schema) :
      Gives i s (.decoded t (decodeRecord w schema))
  | decoded (w : Word) (t : Tag) (schema : Schema) (hi : i = .decode w t.code) (running : s.fault = none)
      (defined : s.schemaAt t = some schema) : Gives i s (.decoded t (decodeRecord w schema))
  | encoded (t : Tag) (lanes : Lanes) (schema : Schema) (hi : i = .encode t.code lanes) (running : s.fault = none)
      (defined : s.schemaAt t = some schema) : Gives i s (.word (encodeRecord lanes schema))
  | status (hi : i = .readStatus) : Gives i s (.status s.statusWord)
  | schemaError (t : Tag) (fields : List FieldSpec) (e : SchemaError) (hi : i = .defineFormat t.code fields)
      (running : s.fault = none) (bad : validate fields = .error e) : Gives i s (.schemaError e)
  | sealFailed (hi : i = .sealTable) (running : s.fault = none) (failed : s.buildFailed = true) :
      Gives i s (.sealRefused .buildFailed 0)
  | sealMissing (t : Tag) (hi : i = .sealTable) (running : s.fault = none) (missing : firstMissing s = some t) :
      Gives i s (.sealRefused .missingSchema t.code)

/-- The ways in which an instruction takes a state to the next. -/
inductive Effect (i : Instr) (s : State) : State → Prop where
  /-- The block is halted and answers the latched cause (R205). -/
  | halted (c : FaultCause) (latched : s.fault = some c) (hi : i ≠ .readStatus) : Effect i s (s.answer (.fault c))
  /-- A fault is raised (R204). -/
  | faulted (c : FaultCause) (running : s.fault = none) (raises : Raises i s c) :
      Effect i s ((s.latchFault c).answer (.fault c))
  /-- A response is given and nothing is written. -/
  | answered (r : Response) (gives : Gives i s r) : Effect i s (s.answer r)
  /-- A format is defined (R105). -/
  | defined (t : Tag) (fields : Schema) (hi : i = .defineFormat t.code fields) (running : s.fault = none)
      (empty : s.schemaAt t = none) (valid : ValidSchema fields) : Effect i s ((s.putSchema t fields).answer .ok)
  /-- An opcode is registered (R160). -/
  | registered (o : Opcode) (t : Tag) (hi : i = .registerOpcode o t.code) (running : s.fault = none)
      (uninit : s.phase = .uninit) (free : s.entryAt o = none) : Effect i s ((s.putEntry o t).answer .ok)
  /-- An opcode is registered a second time (R160). -/
  | duplicate (o : Opcode) (t existing : Tag) (hi : i = .registerOpcode o t.code) (running : s.fault = none)
      (uninit : s.phase = .uninit) (taken : s.entryAt o = some existing) :
      Effect i s (State.answer { s with buildFailed := true } (.duplicateOpcode o existing))
  /-- The table is built (R161). -/
  | sealed (hi : i = .sealTable) (running : s.fault = none) (uninit : s.phase = .uninit)
      (sound : s.buildFailed = false) (closed : ∀ o t, s.entryAt o = some t → s.schemaAt t ≠ none) :
      Effect i s (State.answer { s with phase := .built } .ok)

/-- What routing a word answers (R162). -/
theorem route_next {w : Word} {s t : State} (h : route w s = .next t) :
    (∃ c, s.fault = some c ∧ t = s.answer (.fault c)) ∨
      (s.fault = none ∧
        ((s.phase = .uninit ∧ t = (s.latchFault .dispatchBeforeBuilt).answer (.fault .dispatchBeforeBuilt)) ∨
          (s.phase = .built ∧ s.entryAt (opcodeOf w) = none ∧ t = s.answer (.unrecognized (opcodeOf w))) ∨
          (s.phase = .built ∧ ∃ u schema, s.entryAt (opcodeOf w) = some u ∧ s.schemaAt u = some schema ∧
            t = s.answer (.decoded u (decodeRecord w schema))))) := by
  unfold route at h
  obtain h | ⟨hf, h⟩ := unlessHalted_next h
  · exact .inl h
  refine .inr ⟨hf, ?_⟩
  cases hp : s.phase with
  | uninit => exact .inl ⟨rfl, by simpa [hp] using h⟩
  | built =>
    cases he : s.entryAt (opcodeOf w) with
    | none => exact .inr (.inl ⟨rfl, rfl, by simpa [hp, he] using h⟩)
    | some u =>
      cases hs : s.schemaAt u with
      | none => simp [hp, he, hs] at h
      | some schema => exact .inr (.inr ⟨rfl, u, schema, rfl, hs, by simpa [hp, he, hs] using h⟩)

/-- A routed word has an effect of the list. -/
theorem route_effect {i : Instr} {w : Word} {s t : State} (hi : Routes i w) (h : route w s = .next t) :
    Effect i s t := by
  have hr : i ≠ .readStatus := by rintro rfl; obtain h | h := hi <;> simp [encode] at h
  obtain ⟨c, hc, rfl⟩ | ⟨hf, ⟨hp, rfl⟩ | ⟨hp, he, rfl⟩ | ⟨hp, u, schema, he, hs, rfl⟩⟩ := route_next h
  · exact .halted c hc hr
  · exact .faulted _ hf (.dispatchBeforeBuilt w hi hp)
  · exact .answered _ (.unrecognized w hi hf hp he)
  · exact .answered _ (.routed w u schema hi hf hp he hs)

theorem execDefineFormat_effect {c : TagCode} {fields : List FieldSpec} {s t : State}
    (h : execDefineFormat c fields s = .next t) : Effect (.defineFormat c fields) s t := by
  obtain ⟨x, hx, rfl⟩ | ⟨hf, h1⟩ := unlessHalted_next h
  · exact .halted x hx (by simp)
  obtain ⟨hc, rfl⟩ | ⟨u, rfl, h2⟩ := withTag_next h1
  · exact .faulted _ hf (.reservedTag c hc (.defineFormat c fields))
  split at h2
  · rename_i hu
    obtain rfl := (raiseFault_eq_next ..).1 h2
    exact .faulted _ hf (.schemaRedefined u fields rfl (Option.isSome_iff_ne_none.1 hu))
  · rename_i hu
    split at h2
    · rename_i e hv
      obtain rfl := (respond_eq_next ..).1 h2
      exact .answered _ (.schemaError u fields e rfl hf hv)
    · rename_i hv
      obtain rfl := (respond_eq_next ..).1 h2
      obtain ⟨rfl, hv⟩ := validate_eq_ok.1 hv
      exact .defined u _ rfl hf (by simpa using hu) hv

theorem execRegisterOpcode_effect {o : Opcode} {c : TagCode} {s t : State}
    (h : execRegisterOpcode o c s = .next t) : Effect (.registerOpcode o c) s t := by
  obtain ⟨x, hx, rfl⟩ | ⟨hf, h1⟩ := unlessHalted_next h
  · exact .halted x hx (by simp)
  obtain ⟨hc, rfl⟩ | ⟨u, rfl, h2⟩ := withTag_next h1
  · exact .faulted _ hf (.reservedTag c hc (.registerOpcode o c))
  obtain ⟨hp, rfl⟩ | ⟨hp, h3⟩ := unlessBuilt_next h2
  · exact .faulted _ hf (.registerAfterBuilt o _ rfl hp)
  split at h3
  · rename_i existing he
    obtain rfl := (respond_eq_next ..).1 h3
    exact .duplicate o u existing rfl hf hp he
  · rename_i he
    obtain rfl := (respond_eq_next ..).1 h3
    exact .registered o u rfl hf hp he

theorem execSeal_effect {s t : State} (h : execSeal s = .next t) : Effect .sealTable s t := by
  obtain ⟨x, hx, rfl⟩ | ⟨hf, h1⟩ := unlessHalted_next h
  · exact .halted x hx (by simp)
  obtain ⟨hp, rfl⟩ | ⟨hp, h2⟩ := unlessBuilt_next h1
  · exact .faulted _ hf (.sealAfterBuilt rfl hp)
  split at h2
  · rename_i hb
    obtain rfl := (respond_eq_next ..).1 h2
    exact .answered _ (.sealFailed rfl hf hb)
  · rename_i hb
    split at h2
    · rename_i u hm
      obtain rfl := (respond_eq_next ..).1 h2
      exact .answered _ (.sealMissing u rfl hf hm)
    · rename_i hm
      obtain rfl := (respond_eq_next ..).1 h2
      exact .sealed rfl hf hp (by simpa using hb) (firstMissing_eq_none.1 hm)

theorem execDecode_effect {w : Word} {c : TagCode} {s t : State} (h : execDecode w c s = .next t) :
    Effect (.decode w c) s t := by
  obtain ⟨x, hx, rfl⟩ | ⟨hf, h1⟩ := unlessHalted_next h
  · exact .halted x hx (by simp)
  obtain ⟨hc, rfl⟩ | ⟨u, rfl, h2⟩ := withTag_next h1
  · exact .faulted _ hf (.reservedTag c hc (.decode w c))
  obtain ⟨he, rfl⟩ | ⟨schema, hs, h3⟩ := withSchema_next h2
  · exact .faulted _ hf (.decodeUndefined w u rfl he)
  · obtain rfl := (respond_eq_next ..).1 h3
    exact .answered _ (.decoded w u schema rfl hf hs)

theorem execEncode_effect {c : TagCode} {lanes : Lanes} {s t : State} (h : execEncode c lanes s = .next t) :
    Effect (.encode c lanes) s t := by
  obtain ⟨x, hx, rfl⟩ | ⟨hf, h1⟩ := unlessHalted_next h
  · exact .halted x hx (by simp)
  obtain ⟨hc, rfl⟩ | ⟨u, rfl, h2⟩ := withTag_next h1
  · exact .faulted _ hf (.reservedTag c hc (.encode c lanes))
  obtain ⟨he, rfl⟩ | ⟨schema, hs, h3⟩ := withSchema_next h2
  · exact .faulted _ hf (.encodeUndefined u lanes rfl he)
  · obtain rfl := (respond_eq_next ..).1 h3
    exact .answered _ (.encoded u lanes schema rfl hf hs)

theorem execReadStatus_effect {s t : State} (h : execReadStatus s = .next t) : Effect .readStatus s t := by
  obtain rfl := (respond_eq_next ..).1 h
  exact .answered _ (.status rfl)

theorem execReservedCmd_effect {s t : State} (h : execReservedCmd s = .next t) : Effect .reservedCmd s t := by
  obtain ⟨x, hx, rfl⟩ | ⟨hf, h1⟩ := unlessHalted_next h
  · exact .halted x hx (by simp)
  · obtain rfl := (raiseFault_eq_next ..).1 h1
    exact .faulted _ hf (.illegalCommand rfl)

/-- Everything an instruction can do. -/
theorem exec_effect {i : Instr} {s t : State} (h : exec i s = .next t) : Effect i s t := by
  cases i with
  | defineFormat => exact execDefineFormat_effect h
  | registerOpcode => exact execRegisterOpcode_effect h
  | sealTable => exact execSeal_effect h
  | decode => exact execDecode_effect h
  | encode => exact execEncode_effect h
  | readStatus => exact execReadStatus_effect h
  | reservedCmd => exact execReservedCmd_effect h
  | dispatch => exact route_effect (.inl rfl) h
  | _ => exact route_effect (.inr rfl) h

end Sys2Proof.Machine
end

