-- ==== Sys2Proof/Laws/PerInstr.lean ====
section
/-! SUPPORT. Statements made once per instruction: a request stands in the space of its instruction's row. -/

namespace Sys2Proof.Laws.RequestSpace

/-- The request that spells an instruction is presented in the space of the instruction's opcode-table row. -/
def Statement (i : Instr) : Prop := (encode i).space = i.space

theorem defineFormat (tag : TagCode) (fields : List FieldSpec) : Statement (.defineFormat tag fields) := rfl
theorem registerOpcode (opcode : Opcode) (tag : TagCode) : Statement (.registerOpcode opcode tag) := rfl
theorem sealTable : Statement .sealTable := rfl
theorem dispatch (word : Word) : Statement (.dispatch word) := rfl
theorem decode (word : Word) (tag : TagCode) : Statement (.decode word tag) := rfl
theorem encode (tag : TagCode) (lanes : Lanes) : Statement (.encode tag lanes) := rfl
theorem readStatus : Statement .readStatus := rfl
theorem reservedCmd : Statement .reservedCmd := rfl
theorem jWord (rd : BitVec 5) (imm0 : BitVec 8) (imm1 : BitVec 1) (imm2 : BitVec 10) (imm3 : BitVec 1) :
    Statement (.jWord rd imm0 imm1 imm2 imm3) := rfl
theorem load (rd : BitVec 5) (funct3 : BitVec 3) (rs1 : BitVec 5) (imm0 : BitVec 12) :
    Statement (.load rd funct3 rs1 imm0) := rfl
theorem miscMem (rd : BitVec 5) (funct3 : BitVec 3) (rs1 : BitVec 5) (imm0 : BitVec 12) :
    Statement (.miscMem rd funct3 rs1 imm0) := rfl
theorem opImm (rd : BitVec 5) (funct3 : BitVec 3) (rs1 : BitVec 5) (imm0 : BitVec 12) :
    Statement (.opImm rd funct3 rs1 imm0) := rfl
theorem auipc (rd : BitVec 5) (imm0 : BitVec 20) : Statement (.auipc rd imm0) := rfl
theorem store (imm0 : BitVec 5) (funct3 : BitVec 3) (rs1 rs2 : BitVec 5) (imm1 : BitVec 7) :
    Statement (.store imm0 funct3 rs1 rs2 imm1) := rfl
theorem op (rd : BitVec 5) (funct3 : BitVec 3) (rs1 rs2 : BitVec 5) (funct7 : BitVec 7) :
    Statement (.op rd funct3 rs1 rs2 funct7) := rfl
theorem lui (rd : BitVec 5) (imm0 : BitVec 20) : Statement (.lui rd imm0) := rfl
theorem branch (imm0 : BitVec 1) (imm1 : BitVec 4) (funct3 : BitVec 3) (rs1 rs2 : BitVec 5) (imm2 : BitVec 6)
    (imm3 : BitVec 1) : Statement (.branch imm0 imm1 funct3 rs1 rs2 imm2 imm3) := rfl
theorem jalr (rd : BitVec 5) (funct3 : BitVec 3) (rs1 : BitVec 5) (imm0 : BitVec 12) :
    Statement (.jalr rd funct3 rs1 imm0) := rfl
theorem jal (rd : BitVec 5) (imm0 : BitVec 8) (imm1 : BitVec 1) (imm2 : BitVec 10) (imm3 : BitVec 1) :
    Statement (.jal rd imm0 imm1 imm2 imm3) := rfl
theorem system (rd : BitVec 5) (funct3 : BitVec 3) (rs1 : BitVec 5) (imm0 : BitVec 12) :
    Statement (.system rd funct3 rs1 imm0) := rfl
theorem unrecognized (opcode : Opcode) (upper : BitVec 25) : Statement (.unrecognized opcode upper) := rfl

end Sys2Proof.Laws.RequestSpace
end

