-- ==== Sys2Proof/Machine/Boot.lean ====
section
/-! DEFINITION. BUILD_PROGRAM (R5, R242): the command sequences that fill the schemas and the table. The block
holds none of them; a requester issues one, and any list of commands will do in its place. -/

namespace Sys2Proof.Machine

/-- The build sequence of R242, steps 1 to 3: define the formats, register the opcodes, seal. -/
def buildProgram (schemas : Config.Schemas) (formats : List Tag) (entries : List (Opcode × Tag)) : List Instr :=
  formats.map (fun t => .defineFormat t.code (schemas.fields t))
    ++ entries.map (fun e => .registerOpcode e.1 e.2.code) ++ [.sealTable]

/-- CFG_TEST (R77): the J format and one opcode. -/
def buildTest (schemas : Config.Schemas) : List Instr := buildProgram schemas [.J] Config.cfgTest

/-- CFG_RV32I (R77, non-normative): all six formats and eleven opcodes. -/
def buildRV32I (schemas : Config.Schemas) : List Instr :=
  buildProgram schemas Config.allTags Config.cfgRV32I

end Sys2Proof.Machine
end

