-- ==== Sys2Proof/Tests/Slice0.lean ====
section
/-! SUPPORT. Tests of one step each, with values from spec/95_test_vectors.md (the vector's name stands in the
docstring; words are written out from R73, R74), and for every obligation with hypotheses a witness that they can
be met, clause by clause. -/

namespace Sys2Proof.Tests

open Sys2Proof.Machine

/-! ## Helpers -/

/-- The six schemas defined, the table empty, not sealed. -/
def schemasOnly : State :=
  { State.reset with
    schemas := ⟨some Config.defaultSchemas.r, some Config.defaultSchemas.i, some Config.defaultSchemas.s,
      some Config.defaultSchemas.b, some Config.defaultSchemas.u, some Config.schemaJ⟩ }

/-- Both reference configurations registered and sealed. -/
def inUse : State :=
  { (Config.cfgTest ++ Config.cfgRV32I).foldl (fun s e => s.putEntry e.1 e.2) schemasOnly with phase := .built }

/-- Reset, with one schema in one slot. -/
def withOne (t : Tag) (fields : Schema) : State := State.reset.putSchema t fields

/-- The state after vector T-1. -/
def afterT1 : State := State.reset.putEntry 0x3C .J

/-- Reset, then SEAL of the empty table (vector T-7). -/
def afterT7 : State := { State.reset with phase := .built }

/-- The state after vector F-6. -/
def halted : State := State.reset.latchFault .schemaUndefined

/-- Whether an outcome is a next state that passes a check. -/
def nextState (check : State → Bool) : Result → Bool
  | .next t => check t
  | .fault _ => false
  | .refused _ => false

/-- Whether an outcome is a next state in which requester 0 received one response. -/
def answered (r : Response) (o : Result) : Bool := nextState (fun t => t.chan.responses == [(0, r)]) o

/-- Whether an outcome answers so and leaves this STATUS. -/
def answeredStatus (r : Response) (status : Word) (o : Result) : Bool :=
  answered r o && nextState (fun t => t.statusWord == status) o

/-- The fields of 32 one-bit names (vector V-8). -/
def oneBitFields : Schema := List.replicate 32 ⟨"b", 1⟩

/-! ## Well-formedness and decoding -/

theorem test_ill_formed_unrecognized_is_refused :
    Config.rowOpcodes.all (fun o => !(Instr.unrecognized o 0).wellFormed) = true := by decide

theorem test_well_formed_unrecognized : (Instr.unrecognized 0x7F 0).wellFormed = true := by decide

theorem test_decode_jWord :
    decode (.word 0b0_0000000000_0_00001011_01010_0111100#32) = .jWord 10 11 0 0 0 := by decide
theorem test_decode_load :
    decode (.word 0b000000001000_00000_010_00100_0000011#32) = .load 4 2 0 8 := by decide
theorem test_decode_miscMem :
    decode (.word 0b000011111111_00001_001_00010_0001111#32) = .miscMem 2 1 1 255 := by decide
theorem test_decode_opImm :
    decode (.word 0b000000000101_00000_000_00001_0010011#32) = .opImm 1 0 0 5 := by decide
theorem test_decode_auipc :
    decode (.word 0b10000000000000000001_00011_0010111#32) = .auipc 3 0x80001 := by decide
theorem test_decode_store :
    decode (.word 0b0000000_00011_00000_010_01000_0100011#32) = .store 8 2 0 3 0 := by decide
theorem test_decode_op :
    decode (.word 0b0000000_00010_00001_000_00011_0110011#32) = .op 3 0 1 2 0 := by decide
theorem test_decode_lui :
    decode (.word 0b00010010001101000101_00101_0110111#32) = .lui 5 0x12345 := by decide
theorem test_decode_branch :
    decode (.word 0b1_111111_00010_00001_000_1110_1_1100011#32) = .branch 1 14 0 1 2 63 1 := by decide
theorem test_decode_jalr :
    decode (.word 0b000000000100_00001_000_00101_1100111#32) = .jalr 5 0 1 4 := by decide
theorem test_decode_jal :
    decode (.word 0b1_0000000001_0_10000000_00001_1101111#32) = .jal 1 128 0 1 1 := by decide
theorem test_decode_system :
    decode (.word 0b000000000000_00000_000_00000_1110011#32) = .system 0 0 0 0 := by decide
theorem test_decode_unrecognized :
    decode (.word 0b1000000000000000000000001_1111111#32) = .unrecognized 0x7F 0x1000001 := by decide
theorem test_decode_reservedCmd : decode (.command 7 {}) = .reservedCmd := by decide
theorem test_decode_encode_command :
    decode (.command 5 { tag := 5, opcode := 0x7F, word := 1 }) = .encode 5 (Vector.replicate 32 0) := by decide
theorem test_encode_branch :
    encode (.branch 1 0xE 0 1 2 0x3F 1) = .word 0xFE208EE3 := by decide

/-- R51: the byte order is the caller's. -/
theorem test_word_of_bytes :
    decodeBytes .little [0x93, 0x00, 0x50, 0x00] = .ok (.opImm 1 0 0 5) ∧
      decodeBytes .big [0x00, 0x50, 0x00, 0x93] = .ok (.opImm 1 0 0 5) := ⟨rfl, rfl⟩
/-- R79. -/
theorem test_three_bytes_are_no_word : decodeBytes .little [0x93, 0, 0] = .error (.notOneWord 3) := rfl
theorem test_table_numbers :
    decodeTableWord 8 2 = some .sealTable ∧ decodeTableWord 32 3 = some (.load 0 0 0 0) ∧
      decodeTableWord 8 0x6F = some (.jal 0 0 0 0 0) ∧ decodeTableWord 8 256 = none := by decide

/-! ## Commands -/

/-- V-2: ZERO_WIDTH comes before WIDTH_SUM, and the sum is reported. -/
theorem test_define_zero_width :
    answeredStatus (.schemaError ⟨.zeroWidth, 32, 32⟩) 0x00000000
      (exec (.defineFormat 0 [⟨"f", 32⟩, ⟨"g", 0⟩]) State.reset) = true := by decide
/-- V-9. -/
theorem test_define_J :
    answeredStatus .ok 0x00002000 (exec (.defineFormat 5 Config.schemaJ) State.reset) = true := by decide
/-- T-2. -/
theorem test_register_duplicate :
    answeredStatus (.duplicateOpcode 0x3C .J) 0x00000002 (exec (.registerOpcode 0x3C 0) afterT1) = true ∧
      nextState (fun t => t.entryAt 0x3C == some .J) (exec (.registerOpcode 0x3C 0) afterT1) = true := by decide
/-- T-11. -/
theorem test_register_last_opcode :
    nextState (fun t => t.entryAt 0x7F == some .R && t.entryAt 0x7E == none)
      (exec (.registerOpcode 0x7F 0) State.reset) = true := by decide
/-- T-6. -/
theorem test_seal_reports_lowest_tag :
    answered (.sealRefused .missingSchema 0)
      (exec .sealTable ((State.reset.putEntry 0x6F .J).putEntry 0x33 .R)) = true := by decide
/-- T-8. -/
theorem test_seal_twice :
    answeredStatus (.fault .tableWriteAfterBuilt) 0x00000025 (exec .sealTable afterT7) = true := by decide
/-- F-3. -/
theorem test_dispatch_before_built :
    answeredStatus (.fault .dispatchBeforeBuilt) 0x0000001C (exec (.dispatch 0) State.reset) = true := by decide
/-- X-14: bit 7 does not affect routing. -/
theorem test_dispatch_ignores_bit_7 :
    answered (.decoded .J (lanesFrom [0x3C, 1, 0, 0, 0, 0])) (exec (.dispatch 0xBC) inUse) = true := by decide
/-- D-2. -/
theorem test_decode_all_ones :
    answered (.decoded .J (lanesFrom [0x7F, 0x1F, 0xFF, 0x1, 0x3FF, 0x1]))
      (exec (.decode 0xFFFFFFFF 5) schemasOnly) = true := by decide
/-- D-12: a field of the full width. -/
theorem test_decode_full_width :
    answered (.decoded .R (lanesFrom [0xDEADBEEF])) (exec (.decode 0xDEADBEEF 0) (withOne .R [⟨"f", 32⟩])) = true := by
  decide
/-- E-4: a lane is cut to its field's width. -/
theorem test_encode_truncates :
    answered (.word 0x00003033) (exec (.encode 0 (lanesFrom [0x33, 0, 0b1011])) schemasOnly) = true := by decide
/-- E-6: lanes beyond the fields are ignored. -/
theorem test_encode_ignores_lanes_beyond :
    answered (.word 0x0000003C)
      (exec (.encode 5 (lanesFrom [0x3C, 0, 0, 0, 0, 0, 0xFFFFFFFF, 0xFFFFFFFF])) schemasOnly) = true := by decide
/-- S-7's fields, without its halt: SCHEMA_VALID bits are at their tags' places. -/
theorem test_read_status :
    answered (.status 0x00002100) (exec .readStatus ((withOne .R [⟨"f", 32⟩]).putSchema .J Config.schemaJ)) = true := by
  decide
/-- F-8. -/
theorem test_read_status_halted : answered (.status 0x00000034) (exec .readStatus halted) = true := by decide
/-- F-1. -/
theorem test_reserved_command :
    answeredStatus (.fault .illegalCommand) 0x0000000C (exec .reservedCmd State.reset) = true := by decide
/-- F-7: the latched cause answers, not the command's own. -/
theorem test_halted_answers_latched_cause :
    answeredStatus (.fault .schemaUndefined) 0x00000034 (exec (.defineFormat 6 []) halted) = true := by decide
/-- V-15: the reserved tag is checked before the list. -/
theorem test_reserved_tag_first :
    answeredStatus (.fault .reservedTag) 0x00000014 (exec (.defineFormat 6 []) State.reset) = true := by decide

/-! ## Word rows -/

/-- L1-4. -/
theorem test_jWord :
    answered (.decoded .J (lanesFrom [0x3C, 0x0A, 0x0B, 0, 0, 0])) (exec (.jWord 0x0A 0x0B 0 0 0) inUse) = true := by
  decide
/-- X-4. -/
theorem test_load : answered (.decoded .I (lanesFrom [0x03, 4, 2, 0, 8])) (exec (.load 4 2 0 8) inUse) = true := by
  decide
theorem test_miscMem :
    answered (.decoded .I (lanesFrom [0x0F, 2, 1, 1, 255])) (exec (.miscMem 2 1 1 255) inUse) = true := by decide
/-- X-1. -/
theorem test_opImm : answered (.decoded .I (lanesFrom [0x13, 1, 0, 0, 5])) (exec (.opImm 1 0 0 5) inUse) = true := by
  decide
theorem test_auipc :
    answered (.decoded .U (lanesFrom [0x17, 3, 0x80001])) (exec (.auipc 3 0x80001) inUse) = true := by decide
/-- X-3. -/
theorem test_store :
    answered (.decoded .S (lanesFrom [0x23, 8, 2, 0, 3, 0])) (exec (.store 8 2 0 3 0) inUse) = true := by decide
/-- X-2. -/
theorem test_op : answered (.decoded .R (lanesFrom [0x33, 3, 0, 1, 2, 0])) (exec (.op 3 0 1 2 0) inUse) = true := by
  decide
/-- X-7. -/
theorem test_lui : answered (.decoded .U (lanesFrom [0x37, 5, 0x12345])) (exec (.lui 5 0x12345) inUse) = true := by
  decide
/-- X-5: the pieces are not put together. -/
theorem test_branch :
    answered (.decoded .B (lanesFrom [0x63, 1, 0xE, 0, 1, 2, 0x3F, 1])) (exec (.branch 1 0xE 0 1 2 0x3F 1) inUse)
      = true := by decide
theorem test_jalr : answered (.decoded .I (lanesFrom [0x67, 5, 0, 1, 4])) (exec (.jalr 5 0 1 4) inUse) = true := by
  decide
/-- X-6. -/
theorem test_jal : answered (.decoded .J (lanesFrom [0x6F, 0, 0, 0, 0, 0])) (exec (.jal 0 0 0 0 0) inUse) = true := by
  decide
/-- X-8. -/
theorem test_system : answered (.decoded .I (lanesFrom [0x73, 0, 0, 0, 0])) (exec (.system 0 0 0 0) inUse) = true := by
  decide
/-- X-12. -/
theorem test_unrecognized :
    answered (.unrecognized 0x7F) (exec (.unrecognized 0x7F 0x1FFFFFF) inUse) = true := by decide
/-- X-10: a named row whose opcode the table does not hold is unrecognized. -/
theorem test_named_row_not_registered :
    answered (.unrecognized 0x3C) (exec (.jWord 0x0A 0x0B 0 0 0) afterT7) = true := by decide

/-! ## Steps -/

/-- The first instruction after reset: F-1 and T-7. -/
theorem test_step_after_reset :
    answered (.fault .illegalCommand) (step (State.reset.withFetchWord 8 7)) = true ∧
      answeredStatus .ok 0x00000001 (step (State.reset.withFetchWord 8 2)) = true := by decide
/-- The order of 95_test_vectors.md section 2.8: the requester that the schedule names is served. -/
theorem test_step_follows_the_schedule :
    nextState (fun t => t.chan.responses == [(1, .fault .dispatchBeforeBuilt)] && t.chan.queues == [[.command 2 {}], []])
      (step { (State.reset.issue 0 (.command 2 {})).issue 1 (.command 3 {}) with
                chan := { ((State.reset.issue 0 (.command 2 {})).issue 1 (.command 3 {})).chan with
                  schedule := [.serve 1] } }) = true := by decide
/-- F-10. -/
theorem test_step_reset :
    step { halted with chan := { halted.chan with schedule := [.reset none] } } = .next State.reset := rfl

/-! ## Build sequences and the written form -/

/-- P1, steps 2 to 4. -/
theorem test_build_program :
    buildTest Config.defaultSchemas =
      [.defineFormat 5 Config.schemaJ, .registerOpcode 0x3C 5, .sealTable] := by decide
/-- P2, steps 1 to 18. -/
theorem test_build_rv32i :
    (buildRV32I Config.defaultSchemas).length = 18 ∧
      (buildRV32I Config.defaultSchemas)[10]? = some (.registerOpcode 0x23 2) := by decide
/-- E-1: a record by name is the record by lanes, and fields left out are 0. -/
theorem test_assemble_encode :
    (AsmCommand.encode 5 [("imm0", 0x0B), ("rd", 0x0A), ("opcode", 0x3C)]).assemble schemasOnly.schemaAt =
      some (.encode 5 (lanesFrom [0x3C, 0x0A, 0x0B])) := by decide
theorem test_assemble_unknown_field :
    (AsmCommand.encode 5 [("rs9", 1)]).assemble schemasOnly.schemaAt = none := by decide
/-- D-11. -/
theorem test_text_of_decoded :
    (Response.decoded .U (lanesFrom [0x3C, 0x0A, 0x0000B])).text schemasOnly.schemaAt =
      "DECODED U \x7bopcode=0x3C, rd=0x0A, imm0=0x0000B\x7d" := by decide
/-- V-5, T-2. -/
theorem test_text_of_errors :
    (AsmCommand.defineFormat 0 [⟨"a", 16⟩, ⟨"b", 15⟩]).text = "DEFINE_FORMAT R, [a:16, b:15]" ∧
    (Response.schemaError ⟨.widthSum, 32, 31⟩).text (fun _ => none) = "SCHEMA_ERROR WIDTH_SUM expected=32 actual=31" ∧
    (Response.duplicateOpcode 0x3C .J).text (fun _ => none) = "DUPLICATE_OPCODE 0x3C existing=J" := by decide

/-! ## Witnesses: every obligation's hypotheses can be met -/

theorem valid_schemaJ : ValidSchema Config.schemaJ := ⟨by decide, by decide, by decide⟩
theorem valid_oneField : ValidSchema [⟨"f", 32⟩] := ⟨by decide, by decide, by decide⟩
theorem valid_oneBitFields : ValidSchema oneBitFields := ⟨by decide, by decide, by decide⟩
theorem valid_defaults (t : Tag) : ValidSchema (Config.defaultSchemas.fields t) := by
  cases t <;> exact ⟨by decide, by decide, by decide⟩

theorem inv_inUse : Machine.Inv inUse := by
  refine ⟨fun t schema h => ?_, fun _ o t _ => by cases t <;> exact Option.some_ne_none _, fun _ => rfl⟩
  obtain rfl : Config.defaultSchemas.fields t = schema := by cases t <;> exact Option.some.inj h
  exact valid_defaults t

theorem inv_halted : Machine.Inv halted :=
  ⟨fun t _ h => by cases t <;> exact absurd h (by simp [halted, State.reset, State.resetFor, SchemaStore.reset, State.schemaAt,
    SchemaStore.get, State.latchFault]), fun h => (nomatch h), fun h => (nomatch h)⟩

theorem inv_afterT1 : Machine.Inv afterT1 :=
  ⟨fun t _ h => by cases t <;> exact absurd h (by simp [afterT1, State.reset, State.resetFor, SchemaStore.reset, State.schemaAt,
    SchemaStore.get, State.putEntry]), fun h => (nomatch h), fun h => (nomatch h)⟩

/-- A built block with two requesters and two requests to come. -/
def waiting : State :=
  { inUse with chan := ⟨[[encode (.dispatch 0xB53C)], [encode .readStatus]], [.serve 1], 0, []⟩ }

theorem inv_waiting : Machine.Inv waiting := ⟨inv_inUse.1, inv_inUse.2, inv_inUse.3⟩

theorem witness_DecodeOfEncodeIsTheInstruction :
    (Instr.unrecognized 0x3D 0x1FFFFFF).wellFormed = true ∧ (Instr.load 31 7 31 0xFFF).wellFormed = true := by decide

theorem witness_CommandCodesSelectTheCommands : State.reset.fault = none := rfl

theorem witness_TagCodesNameTheFormats :
    ((6 : TagCode) = 6 ∨ (6 : TagCode) = 7) ∧ ((7 : TagCode) = 6 ∨ (7 : TagCode) = 7) ∧ State.reset.fault = none := by
  decide

theorem witness_ValidationReportsTheFirstReason :
    let zero : List FieldSpec := [⟨"f", 32⟩, ⟨"g", 0⟩]
    let short : List FieldSpec := [⟨"a", 16⟩, ⟨"b", 15⟩]
    let long : List FieldSpec := [⟨"a", 16⟩, ⟨"b", 17⟩]
    (zero ≠ [] ∧ ∃ f ∈ zero, f.width = 0) ∧
    (short ≠ [] ∧ (∀ f ∈ short, f.width ≠ 0) ∧ (short.map FieldSpec.width).sum = 31) ∧
    (long ≠ [] ∧ (∀ f ∈ long, f.width ≠ 0) ∧ (long.map FieldSpec.width).sum = 33) ∧
    (Config.schemaJ ≠ [] ∧ (∀ f ∈ Config.schemaJ, f.width ≠ 0) ∧ (Config.schemaJ.map FieldSpec.width).sum = 32) := by
  decide

theorem witness_ValidSchemaBounds :
    validate oneBitFields = .ok oneBitFields ∧ oneBitFields.length = 32 ∧
      validate [⟨"f", 32⟩] = .ok [⟨"f", 32⟩] ∧ ([⟨"f", 32⟩] : Schema).length = 1 := ⟨rfl, rfl, rfl, rfl⟩

theorem witness_MaskIsExact : (1 ≤ 1 ∧ 1 ≤ 32) ∧ (1 ≤ 32 ∧ 32 ≤ 32) := by decide

theorem witness_DecodeDeliversEachField :
    (ValidSchema Config.schemaJ ∧ 5 < 32 ∧ Config.schemaJ[5]? = some ⟨"imm3", 1⟩) ∧
      (Config.schemaJ.length ≤ 6 ∧ 6 < 32) ∧
      (ValidSchema oneBitFields ∧ 31 < 32 ∧ oneBitFields[31]? = some ⟨"b", 1⟩) :=
  ⟨⟨valid_schemaJ, by decide, rfl⟩, by decide, valid_oneBitFields, by decide, rfl⟩

theorem witness_EncodeAddsEachFieldAtItsPlace : ValidSchema Config.schemaJ ∧ ValidSchema oneBitFields :=
  ⟨valid_schemaJ, valid_oneBitFields⟩

theorem witness_EncodeOfDecodeIsTheWord : ValidSchema [⟨"f", 32⟩] := valid_oneField

theorem witness_DecodeOfEncodeCutsEachLane :
    ValidSchema Config.schemaJ ∧ (Config.schemaJ[0]? = some ⟨"opcode", 7⟩ ∧ Config.schemaJ.length ≤ 6) ∧
      (lanesFrom [0x7F, 0, 0, 0, 0, 1])[0].toNat < 2 ^ 7 ∧ (lanesFrom [0x7F, 0, 0, 0, 0, 1])[6] = 0 :=
  ⟨valid_schemaJ, by decide, by decide, by decide⟩

theorem witness_FirstLaneOfSevenBitsIsTheOpcode :
    ValidSchema (⟨"opcode", 7⟩ :: [⟨"rest", 25⟩]) ∧ ValidSchema (⟨"imm", 25⟩ :: [⟨"opcode", 7⟩]) :=
  ⟨⟨by decide, by decide, by decide⟩, ⟨by decide, by decide, by decide⟩⟩

theorem witness_DefineFormatByCases :
    halted.fault = some .schemaUndefined ∧ State.reset.fault = none ∧ (5 : TagCode) = Tag.J.code ∧
      schemasOnly.fault = none ∧ schemasOnly.schemaAt .J ≠ none ∧ State.reset.schemaAt .J = none := by decide

theorem witness_RegisterOpcodeByCases :
    halted.fault = some .schemaUndefined ∧ (7 : TagCode) = 7 ∧ (0 : TagCode) = Tag.R.code ∧
      (afterT7.fault = none ∧ afterT7.phase = .built) ∧
      (afterT1.fault = none ∧ afterT1.phase = .uninit ∧ afterT1.entryAt 0x3C = some .J ∧ afterT1.entryAt 0x7F = none) := by
  decide

theorem missing_R : MissingSchema (State.reset.putEntry 0x33 .R) .R := ⟨⟨0x33, by decide⟩, rfl⟩

theorem witness_SealByCases :
    halted.fault = some .schemaUndefined ∧ (afterT7.fault = none ∧ afterT7.phase = .built) ∧
      (State.reset.fault = none ∧ State.reset.phase = .uninit ∧ State.reset.buildFailed = false ∧
        ∀ t, ¬ MissingSchema State.reset t) ∧
      ({ State.reset with buildFailed := true } : State).buildFailed = true ∧
      (MissingSchema (State.reset.putEntry 0x33 .R) .R ∧
        ∀ u, MissingSchema (State.reset.putEntry 0x33 .R) u → Tag.R.code.toNat ≤ u.code.toNat) := by
  refine ⟨rfl, ⟨rfl, rfl⟩, ⟨rfl, rfl, rfl, ?_⟩, rfl, missing_R, fun u _ => ?_⟩
  · rintro t ⟨⟨o, h⟩, _⟩
    rw [reset_entryAt] at h
    exact absurd h (by simp)
  · cases u <;> decide

theorem witness_DispatchByCases :
    (Machine.Inv halted ∧ halted.fault = some .schemaUndefined) ∧
      (Machine.Inv afterT1 ∧ afterT1.fault = none ∧ afterT1.phase = .uninit) ∧
      (Machine.Inv inUse ∧ inUse.fault = none ∧ inUse.phase = .built ∧ inUse.entryAt (opcodeOf 0x7F) = none ∧
        inUse.entryAt (opcodeOf 0xB53C) = some .J) :=
  ⟨⟨inv_halted, rfl⟩, ⟨inv_afterT1, rfl, rfl⟩, inv_inUse, rfl, rfl, by decide, by decide⟩

theorem witness_DecodeByCases_EncodeByCases :
    halted.fault = some .schemaUndefined ∧ (6 : TagCode) = 6 ∧ (5 : TagCode) = Tag.J.code ∧
      (State.reset.fault = none ∧ State.reset.schemaAt .J = none) ∧
      (schemasOnly.fault = none ∧ schemasOnly.schemaAt .J = some Config.schemaJ) := by decide

theorem witness_StatusFields : State.reset.fault = none ∧ halted.fault = some .schemaUndefined := by decide

theorem witness_ReservedCommandFaults : State.reset.fault = none ∧ halted.fault = some .schemaUndefined := by decide

theorem inUse_is : InUse inUse := ⟨rfl, rfl⟩

theorem witness_WordRowsAreDispatches : encode (.unrecognized 0x7F 0) = .word 0x7F := by decide

theorem witness_WordRowsCompleteUnderEverySchemas :
    InUse inUse ∧
      (encode (.jWord 0x0A 0x0B 0 0 0) = .word 0xB53C ∧ inUse.entryAt (opcodeOf 0xB53C) = some .J ∧
        inUse.schemaAt .J = some Config.schemaJ) ∧
      (encode (.unrecognized 0x7F 0) = .word 0x7F ∧ inUse.entryAt (opcodeOf 0x7F) = none) :=
  ⟨inUse_is, by decide, by decide⟩

theorem witness_IFormatRowsUnpackUnderTheDefaults :
    InUse inUse ∧ inUse.schemaAt .I = some (Config.defaultSchemas.fields .I) ∧ inUse.entryAt 0x03 = some .I ∧
      inUse.entryAt 0x0F = some .I ∧ inUse.entryAt 0x13 = some .I ∧ inUse.entryAt 0x67 = some .I ∧
      inUse.entryAt 0x73 = some .I := ⟨inUse_is, by decide⟩

theorem witness_UFormatRowsUnpackUnderTheDefaults :
    InUse inUse ∧ inUse.schemaAt .U = some (Config.defaultSchemas.fields .U) ∧ inUse.entryAt 0x17 = some .U ∧
      inUse.entryAt 0x37 = some .U := ⟨inUse_is, by decide⟩

theorem witness_SAndRFormatRowsUnpackUnderTheDefaults :
    InUse inUse ∧ (inUse.entryAt 0x23 = some .S ∧ inUse.schemaAt .S = some (Config.defaultSchemas.fields .S)) ∧
      (inUse.entryAt 0x33 = some .R ∧ inUse.schemaAt .R = some (Config.defaultSchemas.fields .R)) :=
  ⟨inUse_is, by decide, by decide⟩

theorem witness_BFormatRowUnpacksUnderTheDefaults :
    InUse inUse ∧ inUse.entryAt 0x63 = some .B ∧ inUse.schemaAt .B = some (Config.defaultSchemas.fields .B) :=
  ⟨inUse_is, by decide⟩

theorem witness_JFormatRowsUnpack :
    InUse inUse ∧ inUse.schemaAt .J = some Config.schemaJ ∧ inUse.entryAt 0x3C = some .J ∧
      inUse.entryAt 0x6F = some .J := ⟨inUse_is, by decide⟩

theorem witness_DispatchIsDecodeWithTheTablesTag :
    Machine.Inv inUse ∧ InUse inUse ∧ inUse.entryAt (opcodeOf 0xB53C) = some .J ∧
      ∃ u, exec (.dispatch 0x7F) inUse = .next u := ⟨inv_inUse, inUse_is, by decide, _, rfl⟩

theorem witness_EveryCommandAnswersExactlyOnce : ∃ t, exec (.dispatch 0xB53C) inUse = .next t := ⟨_, rfl⟩

theorem witness_PhaseChangesOnlyByASuccessfulSeal :
    exec .sealTable State.reset = .next (State.answer { State.reset with phase := .built } .ok) ∧
      Phase.built ≠ State.reset.phase := ⟨rfl, by decide⟩

theorem witness_BuildFailedIsSetByDuplicatesAlone :
    let t := State.answer { afterT1 with buildFailed := true } (.duplicateOpcode 0x3C .J)
    (exec (.registerOpcode 0x3C 0) afterT1 = .next t ∧ Answers afterT1 t (.duplicateOpcode 0x3C .J) ∧
      afterT1.buildFailed = false ∧ t.buildFailed = true) ∧
    (t.fault = none ∧ t.phase = .uninit ∧ ∃ u, exec .sealTable t = .next u) :=
  ⟨⟨rfl, rfl, rfl, rfl⟩, rfl, rfl, _, rfl⟩

theorem witness_SlotsAreWrittenOnceByDefineFormat :
    exec (.defineFormat 5 Config.schemaJ) State.reset = .next ((withOne .J Config.schemaJ).answer .ok) ∧
      ((withOne .J Config.schemaJ).answer .ok).schemaAt .J ≠ State.reset.schemaAt .J := ⟨rfl, by decide⟩

theorem witness_EntriesAreWrittenOnceByRegisterOpcode :
    exec (.registerOpcode 0x3C 5) State.reset = .next (afterT1.answer .ok) ∧
      (afterT1.answer .ok).entryAt 0x3C ≠ State.reset.entryAt 0x3C := ⟨rfl, by decide⟩

theorem witness_ReadCommands :
    readOnly (.dispatch 0) = true ∧ readOnly .readStatus = true ∧
      (∃ t, exec (.dispatch 0) State.reset = .next t ∧ Answers State.reset t (.fault .dispatchBeforeBuilt)) ∧
      (∃ t, exec (.dispatch 0) inUse = .next t ∧ t.fault = none) ∧
      ∃ u, exec .readStatus inUse = .next u ∧ Answers inUse u (.status inUse.statusWord) :=
  ⟨rfl, rfl, ⟨_, rfl, rfl⟩, ⟨_, rfl, rfl⟩, _, rfl, rfl⟩

theorem witness_ResponsesComeFromTheirCommands :
    (∃ t, exec (.decode 0 5) schemasOnly = .next t ∧
      ∃ lanes, Answers schemasOnly t (.decoded .J lanes)) ∧
    (∃ t, exec .sealTable (State.reset.putEntry 0x33 .R) = .next t ∧
      Answers (State.reset.putEntry 0x33 .R) t (.sealRefused .missingSchema 0)) ∧
    ∃ t, exec (.defineFormat 0 []) State.reset = .next t ∧
      Answers State.reset t (.schemaError ⟨.empty, 32, 0⟩) :=
  ⟨⟨_, rfl, _, rfl⟩, ⟨_, rfl, rfl⟩, _, rfl, rfl⟩

theorem witness_OutcomeClassesAndTheirEffects :
    (Response.unrecognized 0x7F).outcomeClass = .normal ∧
    (∃ t, exec (.registerOpcode 0x3C 0) afterT1 = .next t ∧ Answers afterT1 t (.duplicateOpcode 0x3C .J)) ∧
    (∃ t, exec .reservedCmd State.reset = .next t ∧ Answers State.reset t (.fault .illegalCommand)) :=
  ⟨rfl, ⟨_, rfl, rfl⟩, _, rfl, rfl⟩

theorem witness_FaultEntryLatchesTheCauseAlone :
    ∃ t, exec (.decode 0 5) State.reset = .next t ∧ State.reset.fault = none ∧
      Answers State.reset t (.fault .schemaUndefined) := ⟨_, rfl, rfl, rfl⟩

theorem witness_CausesComeFromTheirCommands :
    (∃ t, exec .reservedCmd State.reset = .next t ∧ t.fault = some .illegalCommand) ∧
    (∃ t, exec (.encode 7 (lanesFrom [])) State.reset = .next t ∧ t.fault = some .reservedTag) ∧
    (∃ t, exec (.dispatch 0) State.reset = .next t ∧ t.fault = some .dispatchBeforeBuilt) ∧
    (∃ t, exec .sealTable afterT7 = .next t ∧ t.fault = some .tableWriteAfterBuilt) ∧
    (∃ t, exec (.defineFormat 5 []) schemasOnly = .next t ∧ t.fault = some .schemaRedefined) ∧
    ∃ t, exec (.decode 0 5) State.reset = .next t ∧ t.fault = some .schemaUndefined :=
  ⟨⟨_, rfl, rfl⟩, ⟨_, rfl, rfl⟩, ⟨_, rfl, rfl⟩, ⟨_, rfl, rfl⟩, ⟨_, rfl, rfl⟩, _, rfl, rfl⟩

/-- The step that leaves a halted state: a reset is next. -/
theorem witness_HaltedBlockAnswersTheLatchedCause :
    halted.fault = some .schemaUndefined ∧ Instr.sealTable ≠ .readStatus ∧
      ∃ t, step { halted with chan := { halted.chan with schedule := [.reset none] } } = .next t ∧
        t.fault ≠ some .schemaUndefined := ⟨rfl, by decide, _, rfl, by decide⟩

/-- A halted block that is asked to seal. -/
def haltedAsked : State := halted.issue 0 (encode .sealTable)

theorem witness_HaltedBlockNeverChangesWithoutReset :
    Halted haltedAsked ∧ NoReset haltedAsked ∧
      ∃ t, core.run 2 haltedAsked = .next t ∧ t.chan.responses = [(0, .fault .schemaUndefined)] :=
  ⟨Option.some_ne_none _, fun _ h => (nomatch h), _, rfl, rfl⟩

theorem witness_StepKeepsTheInvariant : Machine.Inv waiting ∧ ∃ t, step waiting = .next t :=
  ⟨inv_waiting, _, rfl⟩

theorem witness_NothingStopsUnderTheInvariant : Machine.Inv waiting := inv_waiting

theorem witness_StepPerformsTheDecodedRequest :
    Instr.readStatus.wellFormed = true ∧ waiting.chan.schedule = [.serve 1] ∧
      waiting.chan.queues[1]? = some (encode .readStatus :: []) := ⟨rfl, rfl, rfl⟩

theorem witness_ResetMeetsTheInvariant_NumberOfRequestersIsFixed :
    (State.resetFor 2 (by decide)).nReq = 2 ∧ (∃ t, exec (.dispatch 0xB53C) waiting = .next t) ∧
      ∃ t, step { waiting with chan := { waiting.chan with schedule := [.reset (some 1)] } } = .next t :=
  ⟨rfl, ⟨_, rfl⟩, _, rfl⟩

theorem witness_WrittenRecordsSetTheNamedLanes :
    let record : List (String × Word) := [("imm3", 1), ("opcode", 0x3C)]
    schemasOnly.schemaAt .J = some Config.schemaJ ∧ ValidSchema Config.schemaJ ∧ namesDistinct Config.schemaJ = true ∧
      (record.map Prod.fst).Nodup ∧ (∀ e ∈ record, e.1 ∈ Config.schemaJ.map FieldSpec.name) ∧
      (Config.schemaJ[5]? = some ⟨"imm3", 1⟩ ∧ ("imm3", 1) ∈ record) ∧
      (Config.schemaJ[1]? = some ⟨"rd", 5⟩ ∧ "rd" ∉ record.map Prod.fst) ∧ Config.schemaJ.length ≤ 6 :=
  ⟨rfl, valid_schemaJ, by decide⟩

/-- A place of the schedule is used up while no request waits (log 4). -/
theorem test_step_waits :
    step { State.reset with chan := { State.reset.chan with schedule := [.serve 0] } } = .next State.reset := rfl

theorem witness_UnscheduledStepServesTheLowestRequester :
    (haltedAsked.chan.schedule = [] ∧ haltedAsked.chan.queues[0]? = some (encode .sealTable :: []) ∧
      ∀ p < 0, haltedAsked.chan.queues[p]? = some []) ∧
    (State.reset.chan.schedule = [] ∧ ∀ l ∈ State.reset.chan.queues, l = []) :=
  ⟨⟨rfl, rfl, fun _ h => absurd h (Nat.not_lt_zero _)⟩, rfl, by decide⟩

theorem noReset_waiting : NoReset waiting := by
  intro p h
  rcases List.mem_singleton.1 h with ⟨⟩

theorem witness_EachRequestersOrderIsKept : NoReset waiting ∧ ∃ t, step waiting = .next t :=
  ⟨noReset_waiting, _, rfl⟩

theorem witness_ResetEventAndNothingElseGoesBack :
    ({ waiting.chan with schedule := [.reset (some 0)] } : Channel).schedule = .reset (some 0) :: [] ∧
      (∀ p later, waiting.chan.schedule ≠ .reset p :: later) ∧ ∃ t, step waiting = .next t :=
  ⟨rfl, fun _ _ h => (nomatch h), _, rfl⟩

theorem witness_EveryRequestIsAnsweredOnce : Machine.Inv waiting ∧ NoReset waiting ∧ pending waiting = 2 :=
  ⟨inv_waiting, noReset_waiting, rfl⟩

theorem witness_DispatchAnswersAreFixedAfterSeal :
    Machine.Inv waiting ∧ InUse waiting ∧ NoReset waiting ∧ ∃ t, core.run 2 waiting = .next t ∧ t.fault = none :=
  ⟨inv_waiting, ⟨rfl, rfl⟩, noReset_waiting, _, rfl, rfl⟩

end Sys2Proof.Tests
end

section
/-! Proofs of 00_scope.md. The number of requesters (R5), and the step as exec of the decoded request (R11, R56). -/

namespace Sys2Proof

/-! ## The decoder after the encoder -/

/-- A word whose opcode no row names is the row for every other word (R78). -/
theorem rowOfWord_of_unnamed {w : Word} (h : Config.rowOpcodes.contains (opcodeOf w) = false) :
    rowOfWord w = .unrecognized (opcodeOf w) (w.extractLsb' 7 25) := by
  apply rowOfWord_cases w (P := (· = Instr.unrecognized (opcodeOf w) (w.extractLsb' 7 25)))
  case other => exact fun _ => rfl
  all_goals
    intro hnamed
    rw [hnamed] at h
    exact absurd h (by decide)

/-- A request decodes to the instruction it spells (R81, R82, R73, R74): a command by its code, a row of the word
space because its layout gives back the opcode and every field. -/
theorem decode_encode {i : Instr} (h : i.wellFormed = true) : decode (encode i) = i := by
  cases i with
  | defineFormat | registerOpcode | sealTable | dispatch | decode | encode | readStatus | reservedCmd => rfl
  | jWord | jal => simp [encode, decode, rowOfWord, fields_of_wordJ]
  | load | miscMem | opImm | jalr | system => simp [encode, decode, rowOfWord, fields_of_wordI]
  | auipc | lui => simp [encode, decode, rowOfWord, fields_of_wordU]
  | store => simp [encode, decode, rowOfWord, fields_of_wordS]
  | op => simp [encode, decode, rowOfWord, fields_of_wordR]
  | branch => simp [encode, decode, rowOfWord, fields_of_wordB]
  | unrecognized opcode upper =>
    obtain ⟨hopcode, hupper⟩ := fields_of_wordOther opcode upper
    have hunnamed : Config.rowOpcodes.contains (opcodeOf (wordOther opcode upper)) = false := by
      simpa [hopcode, Instr.wellFormed] using h
    rw [encode, decode, rowOfWord_of_unnamed hunnamed, hopcode, hupper]

end Sys2Proof

namespace Sys2Proof.Machine

/-! ## What leaves the number of requesters -/

/-- An instruction takes no request, uses up no place of the schedule and does not change whom it serves (R80). -/
theorem exec_sameRequests {i : Instr} {s t : State} (h : exec i s = .next t) : SameRequests s t := by
  cases exec_effect h <;> exact ⟨rfl, rfl, rfl⟩

theorem SameRequests.nReq_eq {s t : State} (h : SameRequests s t) : t.nReq = s.nReq :=
  congrArg List.length h.queues

theorem exec_nReq {i : Instr} {s t : State} (h : exec i s = .next t) : t.nReq = s.nReq :=
  (exec_sameRequests h).nReq_eq

@[simp] theorem resetFor_nReq (n : Nat) (h : 1 ≤ n) : (State.resetFor n h).nReq = n := List.length_replicate

@[simp] theorem popSlot_nReq (s : State) : s.popSlot.nReq = s.nReq := rfl

/-- Taking a request shortens one queue and leaves their number. -/
theorem serving_nReq {wanted : Option Nat} {s : State} {x : Taken} (h : arbitrate wanted s.chan.queues = some x) :
    (s.serving x).nReq = s.nReq := by
  obtain ⟨rest, -, hqueues⟩ := arbitrate_eq_some h
  simp [State.nReq, hqueues]

/-- No step, a reset among them, changes the number of requesters. -/
theorem step_nReq {s t : State} (h : step s = .next t) : t.nReq = s.nReq := by
  obtain ⟨p, rest, -, hstep⟩ | ⟨-, -, hstep⟩ | ⟨wanted, x, htaken, -, hstep⟩ := step_cases s
  · obtain rfl : resetEvent p s.popSlot = t := by simpa [hstep] using h
    exact resetEvent_nReq p s.popSlot
  · obtain rfl : s.popSlot = t := by simpa [hstep] using h
    exact popSlot_nReq s
  · calc
      t.nReq = (s.popSlot.serving x).nReq := exec_nReq (hstep ▸ h)
      _ = s.nReq := serving_nReq (s := s.popSlot) htaken

/-! ## A step whose place is a requester's -/

/-- Arbitration takes the oldest request of the requester wanted, if it has one. -/
theorem arbitrate_wanted {queues : List (List Request)} {q : Nat} {r : Request} {rest : List Request}
    (h : queues[q]? = some (r :: rest)) : arbitrate (some q) queues = some (q, r, queues.set q rest) := by
  have htake : takeRequest queues q = some (q, r, queues.set q rest) :=
    takeRequest_eq_some.2 ⟨rest, h, rfl, rfl⟩
  simp [arbitrate, htake]

/-- The step at a place of the schedule that names a requester performs the request arbitration picks for it. -/
theorem step_of_serve {s : State} {q : Nat} {later : List Slot} {x : Taken}
    (hschedule : s.chan.schedule = .serve q :: later) (htaken : arbitrate (some q) s.chan.queues = some x) :
    step s = exec (decode x.2.1) (s.popSlot.serving x) := by
  simp [step, nextEvent, hschedule, serveNext, htaken, State.serving]

end Sys2Proof.Machine

open Sys2Proof Sys2Proof.Machine

/-- Settles O57: what an instruction does leaves the queues as they are, and a step keeps their number in each of its
three forms, a reset, a wait and a request performed. -/
theorem numberOfRequestersIsFixed : Obligations.NumberOfRequestersIsFixed :=
  ⟨resetFor_nReq, resetFor_nReq 1 (Nat.le_refl 1), fun _ _ _ => exec_nReq, fun _ _ => step_nReq⟩

/-- Settles O51: the scheduled requester's oldest request is the one taken, and it decodes to the instruction it
spells. -/
theorem stepPerformsTheDecodedRequest : Obligations.StepPerformsTheDecodedRequest := by
  intro s q i waiting later hi hschedule hqueue
  have hserved : s.popSlot.serving (q, encode i, s.chan.queues.set q waiting) =
      { s with chan := { s.chan with queues := s.chan.queues.set q waiting, schedule := later, serving := q } } := by
    simp [State.serving, State.popSlot, Channel.serve, hschedule]
  rw [step_of_serve hschedule (arbitrate_wanted hqueue), decode_encode hi, hserved]

end

section
/-! Proofs of 10_state.md. Which instruction writes which state element (R21 to R25, R29), STATUS (R30), reset (R32),
and what every step keeps (R26, R205, R206). -/

namespace Sys2Proof.Machine

/-! ## The block's elements across the updates of the channel -/

theorem SameBlock.refl (s : State) : SameBlock s s := ⟨rfl, rfl, rfl, rfl, rfl⟩

theorem SameBlock.trans {s t u : State} (hst : SameBlock s t) (htu : SameBlock t u) : SameBlock s u where
  phase := htu.phase.trans hst.phase
  buildFailed := htu.buildFailed.trans hst.buildFailed
  fault := htu.fault.trans hst.fault
  schemas := htu.schemas.trans hst.schemas
  table := htu.table.trans hst.table

theorem SameBlock.halted {s t : State} (h : SameBlock s t) (hs : Halted s) : Halted t := by
  rwa [Halted, h.fault]

theorem sameBlock_answer (s : State) (r : Response) : SameBlock s (s.answer r) := ⟨rfl, rfl, rfl, rfl, rfl⟩

theorem sameBlock_popSlot (s : State) : SameBlock s s.popSlot := ⟨rfl, rfl, rfl, rfl, rfl⟩

theorem sameBlock_serving (s : State) (x : Taken) : SameBlock s (s.serving x) := ⟨rfl, rfl, rfl, rfl, rfl⟩

/-! ## Runs -/

/-- A run of one more step takes that step first. -/
theorem run_succ_eq_next {M : Host.Core} {n : Nat} {s t : M.State} :
    M.run (n + 1) s = .next t ↔ ∃ u, M.step s = .next u ∧ M.run n u = .next t := by
  rw [Host.Core.run]
  cases M.step s <;> simp

/-- What every step keeps holds at the end of every run that begins with it. -/
theorem run_keeps {M : Host.Core} {P : M.State → Prop} (keeps : ∀ s t, P s → M.step s = .next t → P t) {n : Nat}
    {s t : M.State} (hs : P s) (hrun : M.run n s = .next t) : P t := by
  induction n generalizing s with
  | zero =>
    obtain rfl : s = t := Host.Outcome.next.inj hrun
    exact hs
  | succ n ih =>
    obtain ⟨u, hstep, hrest⟩ := run_succ_eq_next.1 hrun
    exact ih (keeps s u hs hstep) hrest

/-- A step uses up the first place of the schedule, if there is one, whatever it does in it (R56). -/
theorem step_schedule {s t : State} (h : step s = .next t) : t.chan.schedule = s.chan.schedule.tail := by
  obtain ⟨p, rest, -, hstep⟩ | ⟨-, -, hstep⟩ | ⟨wanted, x, -, -, hstep⟩ := step_cases s
  · obtain rfl : resetEvent p s.popSlot = t := by simpa [hstep] using h
    rfl
  · obtain rfl : s.popSlot = t := by simpa [hstep] using h
    rfl
  · exact (exec_sameRequests (hstep ▸ h)).schedule

theorem NoReset.step {s t : State} (hs : NoReset s) (h : step s = .next t) : NoReset t := by
  intro p hp
  rw [step_schedule h] at hp
  exact hs p (List.mem_of_mem_tail hp)

/-! ## The halted block (R205, R206) -/

/-- In a halted block no instruction writes an element: it answers the latched cause, or STATUS. -/
theorem exec_sameBlock_of_halted {i : Instr} {s t : State} (hs : Halted s) (h : exec i s = .next t) :
    SameBlock s t := by
  cases exec_effect h with
  | halted | answered => exact sameBlock_answer s _
  | faulted _ running | defined _ _ _ running | registered _ _ _ running | duplicate _ _ _ _ running
  | sealed _ running => exact absurd running hs

/-- In a halted block no step but a reset writes an element. -/
theorem step_sameBlock_of_halted {s t : State} (hs : Halted s) (hnoReset : NoReset s) (h : step s = .next t) :
    SameBlock s t := by
  obtain ⟨p, rest, hschedule, -⟩ | ⟨-, -, hstep⟩ | ⟨wanted, x, -, -, hstep⟩ := step_cases s
  · exact absurd (hschedule ▸ List.mem_cons_self) (hnoReset p)
  · obtain rfl : s.popSlot = t := by simpa [hstep] using h
    exact sameBlock_popSlot s
  · have hserving : SameBlock s (s.popSlot.serving x) := (sameBlock_popSlot s).trans (sameBlock_serving _ x)
    exact hserving.trans (exec_sameBlock_of_halted (hserving.halted hs) (hstep ▸ h))

/-! ## The invariant (R22, R24, R26) -/

/-- The invariant reads neither the fault nor the channel. -/
theorem Inv.congr {s t : State} (hs : Inv s) (phase : t.phase = s.phase) (buildFailed : t.buildFailed = s.buildFailed)
    (schemas : t.schemas = s.schemas) (table : t.table = s.table) : Inv t := by
  have slots (u : Tag) : t.schemaAt u = s.schemaAt u := congrArg (SchemaStore.get · u) schemas
  have entries (o : Opcode) : t.entryAt o = s.entryAt o := by simp only [State.entryAt, table]
  constructor <;> simp only [phase, buildFailed, slots, entries]
  · exact hs.schemas_valid
  · exact hs.table_closed
  · exact hs.built_not_failed

theorem Inv.of_sameBlock {s t : State} (hs : Inv s) (h : SameBlock s t) : Inv t :=
  hs.congr h.phase h.buildFailed h.schemas h.table

/-- Before SEAL the invariant asks for valid schemas alone. -/
theorem inv_of_uninit {s : State} (uninit : s.phase = .uninit)
    (valid : ∀ t schema, s.schemaAt t = some schema → ValidSchema schema) : Inv s where
  schemas_valid := valid
  table_closed := by simp [uninit]
  built_not_failed := by simp [uninit]

@[simp] theorem resetFor_schemaAt (n : Nat) (h : 1 ≤ n) (t : Tag) : (State.resetFor n h).schemaAt t = none := by
  cases t <;> rfl

theorem inv_resetFor (n : Nat) (h : 1 ≤ n) : Inv (State.resetFor n h) := inv_of_uninit rfl (by simp)

theorem inv_resetEvent (p : Option Nat) (s : State) : Inv (resetEvent p s) := inv_of_uninit rfl (by simp)

/-- Defining a format with a valid schema adds a valid schema and empties no slot. -/
theorem Inv.putSchema {s : State} (hs : Inv s) {t : Tag} {fields : Schema} (valid : ValidSchema fields) :
    Inv (s.putSchema t fields) where
  schemas_valid u schema hu := by
    rw [putSchema_schemaAt] at hu
    split at hu
    · exact Option.some.inj hu ▸ valid
    · exact hs.schemas_valid u schema hu
  table_closed built o u he := by
    rw [putSchema_schemaAt]
    split
    · simp
    · exact hs.table_closed built o u he
  built_not_failed := hs.built_not_failed

/-- Every instruction keeps the invariant: what it writes is checked before, or the table is not built yet. -/
theorem exec_inv {i : Instr} {s t : State} (hs : Inv s) (h : exec i s = .next t) : Inv t := by
  cases exec_effect h with
  | halted | answered | faulted => exact hs.congr rfl rfl rfl rfl
  | defined u fields _ _ _ valid => exact (hs.putSchema valid).of_sameBlock (sameBlock_answer _ _)
  | registered _ _ _ _ uninit | duplicate _ _ _ _ _ uninit => exact inv_of_uninit uninit hs.schemas_valid
  | sealed _ _ _ sound closed => exact ⟨hs.schemas_valid, fun _ => closed, fun _ => sound⟩

theorem step_inv {s t : State} (hs : Inv s) (h : step s = .next t) : Inv t := by
  obtain ⟨p, rest, -, hstep⟩ | ⟨-, -, hstep⟩ | ⟨wanted, x, -, -, hstep⟩ := step_cases s
  · obtain rfl : resetEvent p s.popSlot = t := by simpa [hstep] using h
    exact inv_resetEvent p s.popSlot
  · obtain rfl : s.popSlot = t := by simpa [hstep] using h
    exact hs.of_sameBlock (sameBlock_popSlot s)
  · exact exec_inv (hs.of_sameBlock ((sameBlock_popSlot s).trans (sameBlock_serving _ x))) (hstep ▸ h)

/-! ## Which instruction writes which element (R21, R22, R24, R25, R29) -/

/-- A state that differs from the one before in its elements alone answers what it is made to answer. -/
theorem answers_answer_iff {s u : State} {r r' : Response} (hchan : u.chan = s.chan) :
    Answers s (u.answer r) r' ↔ r' = r := by
  simp [Answers, hchan, eq_comm]

/-- Only a successful SEAL changes the phase, and it finds no failed construction (R21, R22). -/
theorem exec_phase_changed {i : Instr} {s t : State} (h : exec i s = .next t) (hne : t.phase ≠ s.phase) :
    (i = .sealTable ∧ s.phase = .uninit ∧ t.phase = .built ∧ Answers s t .ok) ∧ s.buildFailed = false := by
  cases exec_effect h with
  | sealed hi _ uninit sound => exact ⟨⟨hi, uninit, rfl, (answers_answer_iff rfl).2 rfl⟩, sound⟩
  | halted | faulted | answered | defined | registered | duplicate => exact absurd rfl hne

/-- DUPLICATE_OPCODE is answered with `build_failed` set (R22, R160). -/
theorem exec_buildFailed_of_duplicate {i : Instr} {s t : State} {o : Opcode} {existing : Tag}
    (h : exec i s = .next t) (hanswer : Answers s t (.duplicateOpcode o existing)) : t.buildFailed = true := by
  cases exec_effect h with
  | duplicate => rfl
  | halted | faulted | defined | registered | sealed => exact nomatch (answers_answer_iff rfl).1 hanswer
  | answered r gives =>
    obtain rfl := (answers_answer_iff rfl).1 hanswer
    exact nomatch gives

/-- An instruction leaves `build_failed` as it is, or is a REGISTER_OPCODE that answers DUPLICATE_OPCODE (R22). -/
theorem exec_buildFailed {i : Instr} {s t : State} (h : exec i s = .next t) :
    t.buildFailed = s.buildFailed ∨ (t.buildFailed = true ∧
      ∃ o c existing, i = .registerOpcode o c ∧ Answers s t (.duplicateOpcode o existing)) := by
  cases exec_effect h with
  | halted | faulted | answered | defined | registered | sealed => exact .inl rfl
  | duplicate o u existing hi => exact .inr ⟨rfl, o, u.code, existing, hi, (answers_answer_iff rfl).2 rfl⟩

/-- SEAL of a failed construction is refused (R161). -/
theorem execSeal_of_buildFailed {s : State} (running : s.fault = none) (uninit : s.phase = .uninit)
    (failed : s.buildFailed = true) : execSeal s = .next (s.answer (.sealRefused .buildFailed 0)) := by
  simp [execSeal, unlessHalted_running running, unlessBuilt, uninit, failed]

/-- A slot that an instruction changes was empty and holds what a successful DEFINE_FORMAT of it gave (R24, R105). -/
theorem exec_schemaAt_changed {i : Instr} {s t : State} {u : Tag} (h : exec i s = .next t)
    (hne : t.schemaAt u ≠ s.schemaAt u) :
    s.schemaAt u = none ∧ ∃ fields, i = .defineFormat u.code fields ∧ ValidSchema fields ∧
      t.schemaAt u = some fields ∧ Answers s t .ok := by
  cases exec_effect h with
  | halted | faulted | answered | registered | duplicate | sealed => exact absurd rfl hne
  | defined v fields hi _ empty valid =>
    have hu : u = v := by
      by_contra hv
      exact hne (by simp [putSchema_schemaAt, hv])
    subst hu
    exact ⟨empty, fields, hi, valid, by simp [putSchema_schemaAt], (answers_answer_iff rfl).2 rfl⟩

/-- An entry that an instruction changes was empty and holds what a successful REGISTER_OPCODE of it gave (R25, R160). -/
theorem exec_entryAt_changed {i : Instr} {s t : State} {o : Opcode} (h : exec i s = .next t)
    (hne : t.entryAt o ≠ s.entryAt o) :
    s.entryAt o = none ∧ s.phase = .uninit ∧ ∃ u : Tag, i = .registerOpcode o u.code ∧
      t.entryAt o = some u ∧ Answers s t .ok := by
  cases exec_effect h with
  | halted | faulted | answered | defined | duplicate | sealed => exact absurd rfl hne
  | registered p u hi _ uninit free =>
    have ho : o = p := by
      by_contra hp
      exact hne (by simp [putEntry_entryAt, hp])
    subst ho
    exact ⟨free, uninit, u, hi, by simp [putEntry_entryAt], (answers_answer_iff rfl).2 rfl⟩

/-- A reading instruction answers and writes nothing, or raises a fault (R29, R53). -/
theorem exec_readOnly {i : Instr} {s t : State} (hread : readOnly i = true) (h : exec i s = .next t) :
    (∃ r, t = s.answer r) ∨ (s.fault = none ∧ ∃ c, t = (s.latchFault c).answer (.fault c)) := by
  cases exec_effect h with
  | halted | answered => exact .inl ⟨_, rfl⟩
  | faulted c running => exact .inr ⟨running, c, rfl⟩
  | defined _ _ hi | registered _ _ hi | duplicate _ _ _ hi | sealed hi =>
    subst hi
    exact absurd hread (by simp [readOnly])

/-! ## STATUS (R30) -/

/-- The layout of STATUS, from bit 31 down: its fields with the bits that read as 0 between them. -/
theorem statusWord_eq_append (s : State) :
    s.statusWord = 0#18 ++ s.schemaValidField ++ 0#2 ++ s.faultCauseField ++ s.faultedFlag ++ s.buildFailedFlag
      ++ s.builtFlag := by
  apply BitVec.eq_of_getLsbD_eq
  intro k hk
  simp only [State.statusWord, BitVec.getLsbD_or, BitVec.getLsbD_shiftLeft, BitVec.getLsbD_setWidth,
    BitVec.getLsbD_append]
  interval_cases k <;> simp

/-- BUILT, BUILD_FAILED and FAULTED at their bits. -/
theorem statusWord_flags (s : State) :
    s.statusWord.getLsbD 0 = (s.phase == .built) ∧ s.statusWord.getLsbD 1 = s.buildFailed ∧
      s.statusWord.getLsbD 2 = s.fault.isSome := by
  simp only [statusWord_eq_append, BitVec.getLsbD_append]
  simp [State.builtFlag, State.buildFailedFlag, State.faultedFlag]

/-- FAULT_CAUSE at bits 5:3, and 0 at bits 7:6 and 31:14. -/
theorem statusWord_extract (s : State) :
    s.statusWord.extractLsb' 3 3 = s.faultCauseField ∧ s.statusWord.extractLsb' 6 2 = 0 ∧
      s.statusWord.extractLsb' 14 18 = 0 := by
  rw [statusWord_eq_append]
  refine ⟨?_, ?_, ?_⟩ <;>
    (apply BitVec.eq_of_getLsbD_eq
     intro k hk
     simp only [BitVec.getLsbD_extractLsb', BitVec.getLsbD_append]
     interval_cases k <;> simp)

theorem schemaValidField_getLsbD (s : State) (t : Tag) :
    s.schemaValidField.getLsbD t.code.toNat = (s.schemaAt t).isSome := by
  simp only [State.schemaValidField, BitVec.getLsbD_append]
  cases t <;> simp [Tag.code]

/-- SCHEMA_VALID: the bit of a tag's code, counted from bit 8. -/
theorem statusWord_schemaValid (s : State) (t : Tag) :
    s.statusWord.getLsbD (8 + t.code.toNat) = (s.schemaAt t).isSome := by
  rw [← schemaValidField_getLsbD, statusWord_eq_append]
  simp only [BitVec.getLsbD_append]
  cases t <;> simp [Tag.code]

theorem FaultCause.code_ne_zero (c : FaultCause) : c.code ≠ 0 := by cases c <;> decide

theorem FaultCause.code_ne_seven (c : FaultCause) : c.code ≠ 7 := by cases c <;> decide

theorem faultCauseField_of_none {s : State} (h : s.fault = none) : s.faultCauseField = 0 := by
  simp [State.faultCauseField, h]

theorem faultCauseField_of_some {s : State} {c : FaultCause} (h : s.fault = some c) : s.faultCauseField = c.code := by
  simp [State.faultCauseField, h]

/-- FAULT_CAUSE is 0 only when there is no fault, and never 7. -/
theorem faultCauseField_legal (s : State) :
    (s.fault ≠ none ↔ s.faultCauseField ≠ 0) ∧ s.faultCauseField ≠ 7 := by
  cases hf : s.fault with
  | none => simp [faultCauseField_of_none hf]
  | some c =>
    rw [faultCauseField_of_some hf]
    exact ⟨iff_of_true (by simp) c.code_ne_zero, c.code_ne_seven⟩

theorem reset_statusWord : State.reset.statusWord = 0x00000000#32 := by decide

end Sys2Proof.Machine

open Sys2Proof Sys2Proof.Machine

/-- Settles O46, by the induction over runs: each step of a halted block keeps every element, and no reset comes. -/
theorem haltedBlockNeverChangesWithoutReset : Obligations.HaltedBlockNeverChangesWithoutReset := by
  intro n s t hs hnoReset hrun
  have keeps (u v : State) (hu : SameBlock s u ∧ NoReset u) (hstep : step u = .next v) :
      SameBlock s v ∧ NoReset v := by
    obtain ⟨hsame, hnext⟩ := hu
    exact ⟨hsame.trans (step_sameBlock_of_halted (hsame.halted hs) hnext hstep), hnext.step hstep⟩
  exact (run_keeps (M := core) keeps ⟨SameBlock.refl s, hnoReset⟩ hrun).1

/-- Settles O49: a reset meets the invariant afresh, a wait writes no element, and an instruction keeps it. -/
theorem stepKeepsTheInvariant : Obligations.StepKeepsTheInvariant := fun _ _ => step_inv

/-- Settles O23, from the layout of STATUS field by field. -/
theorem statusFields : Obligations.StatusFields := by
  refine ⟨fun s => ?_, reset_statusWord⟩
  obtain ⟨hbuilt, hfailed, hfaulted⟩ := statusWord_flags s
  obtain ⟨hcause, hlow, hhigh⟩ := statusWord_extract s
  obtain ⟨hlegal, hseven⟩ := faultCauseField_legal s
  have hbit2 : s.statusWord.getLsbD 2 = true ↔ s.fault ≠ none := by rw [hfaulted, Option.isSome_iff_ne_none]
  rw [hcause]
  exact ⟨by rw [hbuilt, beq_iff_eq], hfailed, hbit2, faultCauseField_of_none, fun _ => faultCauseField_of_some, hlow,
    fun t => by rw [statusWord_schemaValid, Option.isSome_iff_ne_none], hhigh, hbit2.trans hlegal, hseven, rfl⟩

/-- Settles O34: of all effects of an instruction only that of a successful SEAL changes the phase. -/
theorem phaseChangesOnlyByASuccessfulSeal : Obligations.PhaseChangesOnlyByASuccessfulSeal :=
  ⟨fun _ _ _ h hne => (exec_phase_changed h hne).1, fun p s => resetEvent_phase s p, rfl⟩

/-- Settles O35: a duplicate is the only effect that writes `build_failed`, and SEAL reads it before it writes. -/
theorem buildFailedIsSetByDuplicatesAlone : Obligations.BuildFailedIsSetByDuplicatesAlone := by
  refine ⟨fun i s t h => ⟨fun _ _ => exec_buildFailed_of_duplicate h, fun hs => ?_, fun hs ht => ?_, fun hs => ?_⟩,
    fun _ => execSeal_of_buildFailed, fun p s => resetEvent_buildFailed s p, rfl⟩
  · obtain hsame | ⟨hset, -⟩ := exec_buildFailed h
    · exact hsame.trans hs
    · exact hset
  · obtain hsame | ⟨-, hduplicate⟩ := exec_buildFailed h
    · simp [hsame, hs] at ht
    · exact hduplicate
  · by_contra hne
    simp [(exec_phase_changed h hne).2] at hs

/-- Settles O36: of all effects only a format's definition writes a slot, the one it names. -/
theorem slotsAreWrittenOnceByDefineFormat : Obligations.SlotsAreWrittenOnceByDefineFormat :=
  ⟨fun _ _ _ _ => exec_schemaAt_changed, reset_schemaAt⟩

/-- Settles O37: of all effects only a registration writes an entry, the one it names. -/
theorem entriesAreWrittenOnceByRegisterOpcode : Obligations.EntriesAreWrittenOnceByRegisterOpcode :=
  ⟨fun _ _ _ _ => exec_entryAt_changed, reset_entryAt⟩

/-- Settles O38: a reading instruction answers, or latches a fault and answers it. -/
theorem readCommandsWriteNothing : Obligations.ReadCommandsWriteNothing := by
  intro i s t hread h
  obtain ⟨r, rfl⟩ | ⟨running, c, rfl⟩ := exec_readOnly hread h
  · exact ⟨rfl, rfl, rfl, rfl, .inl rfl⟩
  · exact ⟨rfl, rfl, rfl, rfl, .inr ⟨running, c, rfl, rfl⟩⟩

/-- Settles O47: the fields of the reset state, its empty stores read index by index. -/
theorem resetValues : Obligations.ResetValues :=
  ⟨rfl, rfl, rfl, reset_schemaAt, reset_entryAt, reset_statusWord⟩

/-- Settles O48: after reset the table is not built and every slot is empty, whatever the number of requesters. -/
theorem resetMeetsTheInvariant : Obligations.ResetMeetsTheInvariant :=
  ⟨inv_resetFor 1 (Nat.le_refl 1), inv_resetFor⟩

end

section
/-! Proofs of 20_memory.md. What the reading commands answer and when (R53), the order in which requests are served
(R56), and what SEAL fixes (R57, R59). -/

namespace Sys2Proof.Machine

/-! ## Which response a state makes an instruction give -/

/-- An instruction that routes a word is DISPATCH of it or that word's row, and means the same (R162). -/
theorem Routes.exec_eq {i : Instr} {w : Word} (h : Routes i w) (s : State) : exec i s = route w s := by
  obtain rfl | hrow := h
  · rfl
  · cases i with
    | defineFormat | registerOpcode | sealTable | dispatch | decode | encode | readStatus | reservedCmd =>
      exact nomatch hrow
    | _ =>
      obtain rfl := Request.word.inj hrow
      rfl

/-- A halted block answers the latched cause to everything but READ_STATUS (R205). -/
theorem exec_of_halted {i : Instr} {s : State} {c : FaultCause} (latched : s.fault = some c) (hi : i ≠ .readStatus) :
    exec i s = .next (s.answer (.fault c)) := by
  cases i with
  | readStatus => exact absurd rfl hi
  | _ => exact unlessHalted_halted latched _

/-- A reading instruction gives each response whose condition holds. -/
theorem exec_of_gives {i : Instr} {s : State} {r : Response} (hread : readOnly i = true) (h : Gives i s r) :
    exec i s = .next (s.answer r) := by
  cases h with
  | unrecognized w hi running built free =>
    simp [hi.exec_eq, route, unlessHalted_running running, built, free]
  | routed w u schema hi running built taken defined =>
    simp [hi.exec_eq, route, unlessHalted_running running, built, taken, defined]
  | decoded w u schema hi running defined =>
    simp [hi, exec, execDecode, unlessHalted_running running, withTag_code, withSchema, defined]
  | encoded u lanes schema hi running defined =>
    simp [hi, exec, execEncode, unlessHalted_running running, withTag_code, withSchema, defined]
  | status hi => simp [hi, exec, execReadStatus]
  | schemaError _ _ _ hi | sealFailed hi | sealMissing _ hi => exact absurd hread (by simp [hi, readOnly])

/-- A running block raises each fault of a reading instruction whose condition holds. -/
theorem exec_of_raises {i : Instr} {s : State} {c : FaultCause} (hread : readOnly i = true) (running : s.fault = none)
    (h : Raises i s c) : exec i s = raiseFault c s := by
  cases h with
  | reservedTag d reserved hi =>
    cases hi with
    | defineFormat | registerOpcode => exact absurd hread (by simp [readOnly])
    | decode => simp [exec, execDecode, unlessHalted_running running, withTag_reserved reserved]
    | encode => simp [exec, execEncode, unlessHalted_running running, withTag_reserved reserved]
  | dispatchBeforeBuilt w hi uninit => simp [hi.exec_eq, route, unlessHalted_running running, uninit]
  | decodeUndefined w u hi empty =>
    simp [hi, exec, execDecode, unlessHalted_running running, withTag_code, withSchema, empty]
  | encodeUndefined u lanes hi empty =>
    simp [hi, exec, execEncode, unlessHalted_running running, withTag_code, withSchema, empty]
  | illegalCommand hi | registerAfterBuilt _ _ hi | sealAfterBuilt hi | schemaRedefined _ _ hi =>
    exact absurd hread (by simp [hi, readOnly])

/-! ## The reading commands read the block alone (R53) -/

/-- States with the same block differ in the channel at most. -/
theorem SameBlock.exists_chan {s t : State} (h : SameBlock s t) : ∃ c, t = { s with chan := c } := by
  obtain ⟨phase, buildFailed, fault, schemas, table⟩ := h
  exact ⟨t.chan, by rw [← phase, ← buildFailed, ← fault, ← schemas, ← table]⟩

theorem Gives.of_sameBlock {i : Instr} {s t : State} {r : Response} (h : Gives i s r) (hst : SameBlock s t) :
    Gives i t r := by
  obtain ⟨c, rfl⟩ := hst.exists_chan
  cases h with
  | unrecognized w hi running built free => exact .unrecognized w hi running built free
  | routed w u schema hi running built taken defined => exact .routed w u schema hi running built taken defined
  | decoded w u schema hi running defined => exact .decoded w u schema hi running defined
  | encoded u lanes schema hi running defined => exact .encoded u lanes schema hi running defined
  | status hi => exact .status hi
  | schemaError u fields e hi running bad => exact .schemaError u fields e hi running bad
  | sealFailed hi running failed => exact .sealFailed hi running failed
  | sealMissing u hi running missing => exact .sealMissing u hi running missing

theorem Raises.of_sameBlock {i : Instr} {s t : State} {c : FaultCause} (h : Raises i s c) (hst : SameBlock s t) :
    Raises i t c := by
  obtain ⟨chan, rfl⟩ := hst.exists_chan
  cases h with
  | illegalCommand hi => exact .illegalCommand hi
  | reservedTag d reserved hi => exact .reservedTag d reserved hi
  | dispatchBeforeBuilt w hi uninit => exact .dispatchBeforeBuilt w hi uninit
  | registerAfterBuilt o d hi built => exact .registerAfterBuilt o d hi built
  | sealAfterBuilt hi built => exact .sealAfterBuilt hi built
  | schemaRedefined u fields hi taken => exact .schemaRedefined u fields hi taken
  | decodeUndefined w u hi empty => exact .decodeUndefined w u hi empty
  | encodeUndefined u lanes hi empty => exact .encodeUndefined u lanes hi empty

/-- What a reading instruction answers is decided by the block: whatever the channel holds, the response is the same. -/
theorem exec_answers_of_sameBlock {i : Instr} {s t u : State} {r : Response} (hread : readOnly i = true)
    (hst : SameBlock s t) (h : exec i s = .next u) (hanswer : Answers s u r) :
    ∃ v, exec i t = .next v ∧ Answers t v r := by
  cases exec_effect h with
  | halted c latched hi =>
    obtain rfl := (answers_answer_iff rfl).1 hanswer
    exact ⟨_, exec_of_halted (hst.fault.trans latched) hi, (answers_answer_iff rfl).2 rfl⟩
  | faulted c running raises =>
    obtain rfl := (answers_answer_iff rfl).1 hanswer
    exact ⟨_, exec_of_raises hread (hst.fault.trans running) (raises.of_sameBlock hst), (answers_answer_iff rfl).2 rfl⟩
  | answered r' gives =>
    obtain rfl := (answers_answer_iff rfl).1 hanswer
    exact ⟨_, exec_of_gives hread (gives.of_sameBlock hst), (answers_answer_iff rfl).2 rfl⟩
  | defined _ _ hi | registered _ _ hi | duplicate _ _ _ hi | sealed hi =>
    exact absurd hread (by simp [hi, readOnly])

/-- READ_STATUS latches no fault (R163). -/
theorem execReadStatus_fault {s t : State} (h : exec .readStatus s = .next t) : t.fault = s.fault := by
  obtain rfl := (respond_eq_next ..).1 h
  rfl

/-! ## Which request a step takes (R56) -/

/-- Every instruction is answered with one response, to the requester served (R80). -/
theorem exec_answers {i : Instr} {s t : State} (h : exec i s = .next t) : ∃ r, Answers s t r := by
  cases exec_effect h <;> exact ⟨_, (answers_answer_iff rfl).2 rfl⟩

theorem NoReset.head {s : State} (h : NoReset s) (p : Option Nat) (later : List Slot) :
    s.chan.schedule ≠ .reset p :: later := fun hschedule => h p (hschedule ▸ List.mem_cons_self)

/-- A step at a place that is no reset's waits with nothing on the channel, or performs the request it takes. -/
theorem step_next_of_not_reset {s t : State} (hhead : ∀ p later, s.chan.schedule ≠ .reset p :: later)
    (h : step s = .next t) :
    ((∀ l ∈ s.chan.queues, l = []) ∧ t = s.popSlot) ∨
      ∃ wanted x, arbitrate wanted s.chan.queues = some x ∧ exec (decode x.2.1) (s.popSlot.serving x) = .next t := by
  obtain ⟨p, rest, hschedule, -⟩ | ⟨hempty, -, hstep⟩ | ⟨wanted, x, htaken, -, hstep⟩ := step_cases s
  · exact absurd hschedule (hhead p rest)
  · exact .inl ⟨hempty, Host.Outcome.next.inj (h.symm.trans hstep)⟩
  · exact .inr ⟨wanted, x, htaken, hstep ▸ h⟩

/-- The lowest-numbered requester with a request is found. -/
theorem firstPending_of_lowest {queues : List (List Request)} {q : Nat} {r : Request} {rest : List Request}
    (hq : queues[q]? = some (r :: rest)) (hlow : ∀ p < q, queues[p]? = some []) : firstPending queues = some q := by
  cases hfirst : firstPending queues with
  | none => exact absurd (firstPending_eq_none.1 hfirst _ (List.mem_of_getElem? hq)) (by simp)
  | some p =>
    obtain ⟨⟨r', rest', hp⟩, hlow'⟩ := firstPending_eq_some hfirst
    obtain hlt | rfl | hgt := Nat.lt_trichotomy p q
    · simp [hlow p hlt] at hp
    · rfl
    · simp [hlow' q hgt] at hq

/-- With no requester wanted, arbitration takes the oldest request of the lowest-numbered requester that has one. -/
theorem arbitrate_none_of_lowest {queues : List (List Request)} {q : Nat} {r : Request} {rest : List Request}
    (hq : queues[q]? = some (r :: rest)) (hlow : ∀ p < q, queues[p]? = some []) :
    arbitrate none queues = some (q, r, queues.set q rest) := by
  have htake : takeRequest queues q = some (q, r, queues.set q rest) :=
    takeRequest_eq_some.2 ⟨rest, hq, rfl, rfl⟩
  simp [arbitrate, firstPending_of_lowest hq hlow, htake]

theorem nextEvent_of_unscheduled {s : State} (h : s.chan.schedule = []) : nextEvent s = serveNext none s := by
  simp [nextEvent, h]

/-! ## What SEAL fixes (R57, R59) -/

/-- A later state whose table is built and answers as the earlier one's does: the same entries, and every schema that
was defined. -/
structure KeepsBuiltTable (s t : State) : Prop where
  built   : t.phase = .built
  entries : ∀ o, t.entryAt o = s.entryAt o
  slots   : ∀ u schema, s.schemaAt u = some schema → t.schemaAt u = some schema

theorem KeepsBuiltTable.trans {s t u : State} (hst : KeepsBuiltTable s t) (htu : KeepsBuiltTable t u) :
    KeepsBuiltTable s u where
  built := htu.built
  entries o := (htu.entries o).trans (hst.entries o)
  slots v schema h := htu.slots v schema (hst.slots v schema h)

theorem keepsBuiltTable_of_sameBlock {s t : State} (built : s.phase = .built) (h : SameBlock s t) :
    KeepsBuiltTable s t := by
  obtain ⟨c, rfl⟩ := h.exists_chan
  exact ⟨built, fun _ => rfl, fun _ _ => id⟩

/-- After SEAL no instruction writes an entry, and a slot is written only while it is empty (R24, R25). -/
theorem exec_keepsBuiltTable {i : Instr} {s t : State} (built : s.phase = .built) (h : exec i s = .next t) :
    KeepsBuiltTable s t where
  built := by
    by_contra hne
    obtain ⟨⟨-, uninit, -⟩, -⟩ := exec_phase_changed h (built.symm ▸ hne)
    simp [built] at uninit
  entries o := by
    by_contra hne
    obtain ⟨-, uninit, -⟩ := exec_entryAt_changed h hne
    simp [built] at uninit
  slots u schema hu := by
    by_contra hne
    obtain ⟨hempty, -⟩ := exec_schemaAt_changed h (hu.symm ▸ hne)
    simp [hu] at hempty

theorem step_keepsBuiltTable {s t : State} (built : s.phase = .built) (hnoReset : NoReset s) (h : step s = .next t) :
    KeepsBuiltTable s t := by
  obtain ⟨-, rfl⟩ | ⟨wanted, x, -, hexec⟩ := step_next_of_not_reset hnoReset.head h
  · exact keepsBuiltTable_of_sameBlock built (sameBlock_popSlot s)
  · have hserving : SameBlock s (s.popSlot.serving x) := (sameBlock_popSlot s).trans (sameBlock_serving _ x)
    exact (keepsBuiltTable_of_sameBlock built hserving).trans (exec_keepsBuiltTable built hexec)

theorem run_keepsBuiltTable {n : Nat} {s t : State} (built : s.phase = .built) (hnoReset : NoReset s)
    (hrun : core.run n s = .next t) : KeepsBuiltTable s t := by
  have keeps (u v : State) (hu : KeepsBuiltTable s u ∧ NoReset u) (hstep : step u = .next v) :
      KeepsBuiltTable s v ∧ NoReset v := by
    obtain ⟨hkept, hnext⟩ := hu
    exact ⟨hkept.trans (step_keepsBuiltTable hkept.built hnext hstep), hnext.step hstep⟩
  exact (run_keeps (M := core) keeps ⟨keepsBuiltTable_of_sameBlock built (SameBlock.refl s), hnoReset⟩ hrun).1

/-- DISPATCH finds the same entry, and its schema with it, in every later running state that keeps the built table. -/
theorem KeepsBuiltTable.gives_dispatch {s t : State} (h : KeepsBuiltTable s t) (hs : Inv s) (hinUse : InUse s)
    (running : t.fault = none) (w : Word) : ∃ r, Gives (.dispatch w) s r ∧ Gives (.dispatch w) t r := by
  have hw : Routes (.dispatch w) w := .inl rfl
  cases he : s.entryAt (opcodeOf w) with
  | none =>
    exact ⟨_, .unrecognized w hw hinUse.running hinUse.built he,
      .unrecognized w hw running h.built ((h.entries _).trans he)⟩
  | some u =>
    obtain ⟨schema, hu⟩ := Option.ne_none_iff_exists'.1 (hs.table_closed hinUse.built _ u he)
    exact ⟨_, .routed w u schema hw hinUse.running hinUse.built he hu,
      .routed w u schema hw running h.built ((h.entries _).trans he) (h.slots u schema hu)⟩

end Sys2Proof.Machine

open Sys2Proof Sys2Proof.Machine

/-- Settles O56: every step without a reset keeps the entries and the defined slots of a built table, whether or not
it faults, and these alone decide what DISPATCH answers. -/
theorem dispatchAnswersAreFixedAfterSeal : Obligations.DispatchAnswersAreFixedAfterSeal := by
  intro n s t hs hinUse hnoReset hrun running w
  have hkept : KeepsBuiltTable s t := run_keepsBuiltTable hinUse.built hnoReset hrun
  obtain ⟨r, hbefore, hafter⟩ := hkept.gives_dispatch hs hinUse running w
  exact ⟨r, exec_of_gives rfl hbefore, exec_of_gives rfl hafter⟩

/-- Settles O39: an answer leaves the block as it was, and a fault leaves it halted with the cause just answered. -/
theorem readCommandsRepeatTheirResponse : Obligations.ReadCommandsRepeatTheirResponse := by
  intro i s t r hread h hanswer
  obtain ⟨r', rfl⟩ | ⟨running, c, rfl⟩ := exec_readOnly hread h
  · exact exec_answers_of_sameBlock hread (sameBlock_answer s r') h hanswer
  · obtain rfl := (answers_answer_iff rfl).1 hanswer
    have hi : i ≠ .readStatus := by
      rintro rfl
      simpa [running] using execReadStatus_fault h
    exact ⟨_, exec_of_halted (latchFault_fault s c) hi, (answers_answer_iff rfl).2 rfl⟩

/-- Settles O40: a reading command that leaves no fault leaves the block as it was, and the block decides what the
other one answers. -/
theorem readCommandsDoNotDisturbEachOther : Obligations.ReadCommandsDoNotDisturbEachOther := by
  intro i j s t u r hi hj h running hu hanswer
  obtain ⟨r', rfl⟩ | ⟨-, c, rfl⟩ := exec_readOnly hi h
  · exact exec_answers_of_sameBlock hj (sameBlock_answer s r') hu hanswer
  · simp at running

/-- Settles O52: arbitration without a wanted requester finds the lowest-numbered one with a request, or none. -/
theorem unscheduledStepServesTheLowestRequester : Obligations.UnscheduledStepServesTheLowestRequester := by
  intro s hschedule
  refine ⟨fun q r waiting hq hlow => ?_, fun hempty => ?_⟩
  · simp [step, nextEvent_of_unscheduled hschedule, serveNext, arbitrate_none_of_lowest hq hlow, Channel.serve]
  · simp [step, nextEvent_of_unscheduled hschedule, serveNext, arbitrate_eq_none.2 hempty]

/-- Settles O53: a step waits, or takes the head of one queue and performs it for that requester, which is answered. -/
theorem eachRequestersOrderIsKept : Obligations.EachRequestersOrderIsKept := by
  intro s t hnoReset h
  obtain ⟨-, rfl⟩ | ⟨wanted, x, htaken, hexec⟩ := step_next_of_not_reset hnoReset.head h
  · exact .inl ⟨rfl, rfl⟩
  · obtain ⟨waiting, hhead, hqueues⟩ := arbitrate_eq_some htaken
    obtain ⟨answer, hanswer⟩ := exec_answers hexec
    exact .inr ⟨x.1, x.2.1, waiting, answer, hhead, (exec_sameRequests hexec).queues.trans hqueues, hanswer⟩

end

section
/-! Proofs of 30_encoding.md. The decoder and the word space (R70 to R78, R81 to R83), what a word unpacks to under the
reference schemas (R73 to R76), which command gives which response (R80, R84, R85), written records (R86), and that
every request is answered (R80, R87). -/

namespace Sys2Proof

/-! ## The encoder after the decoder -/

/-- A word's row is well-formed: only the row for unnamed words has a check to pass (R78). -/
theorem rowOfWord_wellFormed (w : Word) : (rowOfWord w).wellFormed = true := by
  apply rowOfWord_cases w (P := (·.wellFormed = true))
  case other =>
    intro hunnamed
    rw [Instr.wellFormed, hunnamed, Bool.not_false]
  all_goals exact fun _ => rfl

theorem rowOfWord_space (w : Word) : (rowOfWord w).space = .word := by
  apply rowOfWord_cases w (P := (·.space = .word)) <;> exact fun _ => rfl

/-- A word's row is spelled by that word: the row's layout puts back the opcode and every field (R72). -/
theorem encode_rowOfWord (w : Word) : encode (rowOfWord w) = .word w := by
  apply rowOfWord_cases w (P := (encode · = .word w))
  case jWord | jal =>
    intro hopcode
    rw [encode, ← hopcode, wordJ_of_fields]
  case load | miscMem | opImm | jalr | system =>
    intro hopcode
    rw [encode, ← hopcode, wordI_of_fields]
  case auipc | lui =>
    intro hopcode
    rw [encode, ← hopcode, wordU_of_fields]
  case store =>
    intro hopcode
    rw [encode, ← hopcode, wordS_of_fields]
  case op =>
    intro hopcode
    rw [encode, ← hopcode, wordR_of_fields]
  case branch =>
    intro hopcode
    rw [encode, ← hopcode, wordB_of_fields]
  case other => exact fun _ => congrArg Request.word (wordOther_of_fields w)

/-- An instruction that a bare word spells is a row of the word space (R73, R74, R78). -/
theorem space_of_encode_eq_word {i : Instr} {w : Word} (h : encode i = .word w) : i.space = .word := by
  cases i with
  | defineFormat | registerOpcode | sealTable | dispatch | decode | encode | readStatus | reservedCmd => exact nomatch h
  | _ => rfl

/-- The opcode of a word as a number (R71). -/
theorem opcodeOf_toNat (w : Word) : (opcodeOf w).toNat = w.toNat % 128 := by
  simp [opcodeOf, BitVec.extractLsb'_toNat]

end Sys2Proof

namespace Sys2Proof.Machine

/-! ## What a word unpacks to (R73 to R76) -/

/-- One field of a word is its bits, zero-extended to a lane (R131). -/
theorem fieldAt_eq_extractLsb' (w : Word) (cursor width : Nat) :
    fieldAt w cursor width = (w.extractLsb' cursor width).setWidth 32 := by
  apply BitVec.eq_of_toNat_eq
  have hlt : w.toNat / 2 ^ cursor % 2 ^ width < 2 ^ 32 :=
    (Nat.mod_le _ _).trans_lt ((Nat.div_le_self _ _).trans_lt w.isLt)
  rw [fieldAt_toNat, BitVec.toNat_setWidth, BitVec.extractLsb'_toNat, Nat.shiftRight_eq_div_pow, Nat.mod_eq_of_lt hlt]

theorem extractLsb'_opcode (w : Word) : w.extractLsb' 0 7 = opcodeOf w := rfl

/-- A record is the values of its fields, the lanes beyond them 0 (R131). -/
theorem decodeRecord_eq_lanesFrom (w : Word) (schema : Schema) :
    decodeRecord w schema = lanesFrom (fieldValues w 0 schema) := rfl

section Layouts
variable (opcode : Opcode)

theorem decodeRecord_wordI (rd : BitVec 5) (funct3 : BitVec 3) (rs1 : BitVec 5) (imm0 : BitVec 12) :
    decodeRecord (wordI opcode rd funct3 rs1 imm0) (Config.defaultSchemas.fields .I) = lanesFrom
      [opcode.setWidth 32, rd.setWidth 32, funct3.setWidth 32, rs1.setWidth 32, imm0.setWidth 32] := by
  simp [decodeRecord_eq_lanesFrom, fieldValues, Config.Schemas.fields, Config.defaultSchemas, fieldAt_eq_extractLsb',
    extractLsb'_opcode, fields_of_wordI]

theorem decodeRecord_wordU (rd : BitVec 5) (imm0 : BitVec 20) :
    decodeRecord (wordU opcode rd imm0) (Config.defaultSchemas.fields .U) = lanesFrom
      [opcode.setWidth 32, rd.setWidth 32, imm0.setWidth 32] := by
  simp [decodeRecord_eq_lanesFrom, fieldValues, Config.Schemas.fields, Config.defaultSchemas, fieldAt_eq_extractLsb',
    extractLsb'_opcode, fields_of_wordU]

theorem decodeRecord_wordS (imm0 : BitVec 5) (funct3 : BitVec 3) (rs1 rs2 : BitVec 5) (imm1 : BitVec 7) :
    decodeRecord (wordS opcode imm0 funct3 rs1 rs2 imm1) (Config.defaultSchemas.fields .S) = lanesFrom
      [opcode.setWidth 32, imm0.setWidth 32, funct3.setWidth 32, rs1.setWidth 32, rs2.setWidth 32,
        imm1.setWidth 32] := by
  simp [decodeRecord_eq_lanesFrom, fieldValues, Config.Schemas.fields, Config.defaultSchemas, fieldAt_eq_extractLsb',
    extractLsb'_opcode, fields_of_wordS]

theorem decodeRecord_wordR (rd : BitVec 5) (funct3 : BitVec 3) (rs1 rs2 : BitVec 5) (funct7 : BitVec 7) :
    decodeRecord (wordR opcode rd funct3 rs1 rs2 funct7) (Config.defaultSchemas.fields .R) = lanesFrom
      [opcode.setWidth 32, rd.setWidth 32, funct3.setWidth 32, rs1.setWidth 32, rs2.setWidth 32,
        funct7.setWidth 32] := by
  simp [decodeRecord_eq_lanesFrom, fieldValues, Config.Schemas.fields, Config.defaultSchemas, fieldAt_eq_extractLsb',
    extractLsb'_opcode, fields_of_wordR]

theorem decodeRecord_wordB (imm0 : BitVec 1) (imm1 : BitVec 4) (funct3 : BitVec 3) (rs1 rs2 : BitVec 5)
    (imm2 : BitVec 6) (imm3 : BitVec 1) :
    decodeRecord (wordB opcode imm0 imm1 funct3 rs1 rs2 imm2 imm3) (Config.defaultSchemas.fields .B) = lanesFrom
      [opcode.setWidth 32, imm0.setWidth 32, imm1.setWidth 32, funct3.setWidth 32, rs1.setWidth 32, rs2.setWidth 32,
        imm2.setWidth 32, imm3.setWidth 32] := by
  simp [decodeRecord_eq_lanesFrom, fieldValues, Config.Schemas.fields, Config.defaultSchemas, fieldAt_eq_extractLsb',
    extractLsb'_opcode, fields_of_wordB]

theorem decodeRecord_wordJ (rd : BitVec 5) (imm0 : BitVec 8) (imm1 : BitVec 1) (imm2 : BitVec 10) (imm3 : BitVec 1) :
    decodeRecord (wordJ opcode rd imm0 imm1 imm2 imm3) Config.schemaJ = lanesFrom
      [opcode.setWidth 32, rd.setWidth 32, imm0.setWidth 32, imm1.setWidth 32, imm2.setWidth 32,
        imm3.setWidth 32] := by
  simp [decodeRecord_eq_lanesFrom, fieldValues, Config.schemaJ, fieldAt_eq_extractLsb',
    extractLsb'_opcode, fields_of_wordJ]

end Layouts

/-- In a built block a row of the word space is unpacked with the schema that the table selects for its opcode
(R162). -/
theorem exec_of_row {i : Instr} {w : Word} {s : State} {t : Tag} {schema : Schema} {o : Opcode} {lanes : Lanes}
    (hi : encode i = .word w) (hopcode : opcodeOf w = o) (hlanes : decodeRecord w schema = lanes) (hinUse : InUse s)
    (defined : s.schemaAt t = some schema) (taken : s.entryAt o = some t) :
    exec i s = .next (s.answer (.decoded t lanes)) := by
  subst hopcode hlanes
  obtain ⟨built, running⟩ := hinUse
  rw [Routes.exec_eq (.inr hi)]
  simp [route, unlessHalted_running running, built, taken, defined]

/-! ## Which command gives which response (R84, R85, R201) -/

/-- What a response that is no fault can be: the OK of a writing command, a duplicate, or one given without a write. -/
theorem exec_response {i : Instr} {s t : State} {r : Response} (h : exec i s = .next t) (hanswer : Answers s t r) :
    (∃ c, r = .fault c) ∨
      (r = .ok ∧ ((∃ c fields, i = .defineFormat c fields) ∨ (∃ o c, i = .registerOpcode o c) ∨ i = .sealTable)) ∨
      (∃ o existing, r = .duplicateOpcode o existing ∧ s.entryAt o = some existing ∧ ∃ c, i = .registerOpcode o c) ∨
      Gives i s r := by
  cases exec_effect h with
  | halted c | faulted c => exact .inl ⟨c, (answers_answer_iff rfl).1 hanswer⟩
  | answered r' gives =>
    obtain rfl := (answers_answer_iff rfl).1 hanswer
    exact .inr (.inr (.inr gives))
  | defined u fields hi => exact .inr (.inl ⟨(answers_answer_iff rfl).1 hanswer, .inl ⟨_, _, hi⟩⟩)
  | registered o u hi => exact .inr (.inl ⟨(answers_answer_iff rfl).1 hanswer, .inr (.inl ⟨_, _, hi⟩)⟩)
  | sealed hi => exact .inr (.inl ⟨(answers_answer_iff rfl).1 hanswer, .inr (.inr hi)⟩)
  | duplicate o u existing hi _ _ taken =>
    exact .inr (.inr (.inl ⟨o, existing, (answers_answer_iff rfl).1 hanswer, taken, _, hi⟩))

/-- A response that neither OK, nor FAULT, nor DUPLICATE_OPCODE is was given without a write. -/
theorem exec_gives {i : Instr} {s t : State} {r : Response} (h : exec i s = .next t) (hanswer : Answers s t r)
    (hfault : ∀ c, r ≠ .fault c) (hok : r ≠ .ok) (hduplicate : ∀ o existing, r ≠ .duplicateOpcode o existing) :
    Gives i s r := by
  obtain ⟨c, hr⟩ | ⟨hr, -⟩ | ⟨o, existing, hr, -⟩ | gives := exec_response h hanswer
  · exact absurd hr (hfault c)
  · exact absurd hr hok
  · exact absurd hr (hduplicate o existing)
  · exact gives

theorem exec_ok {i : Instr} {s t : State} (h : exec i s = .next t) (hanswer : Answers s t .ok) :
    (∃ c fields, i = .defineFormat c fields) ∨ (∃ o c, i = .registerOpcode o c) ∨ i = .sealTable := by
  obtain ⟨c, hr⟩ | ⟨-, hi⟩ | ⟨o, existing, hr, -⟩ | gives := exec_response h hanswer
  · exact nomatch hr
  · exact hi
  · exact nomatch hr
  · exact nomatch gives

theorem exec_duplicateOpcode {i : Instr} {s t : State} {o : Opcode} {existing : Tag} (h : exec i s = .next t)
    (hanswer : Answers s t (.duplicateOpcode o existing)) :
    s.entryAt o = some existing ∧ ∃ c, i = .registerOpcode o c := by
  obtain ⟨c, hr⟩ | ⟨hr, -⟩ | ⟨p, found, hr, hi⟩ | gives := exec_response h hanswer
  · exact nomatch hr
  · exact nomatch hr
  · obtain ⟨rfl, rfl⟩ := Response.duplicateOpcode.inj hr
    exact hi
  · exact nomatch gives

/-- An instruction that routes a word is a row of the word space or DISPATCH of it. -/
theorem Routes.space_or_dispatch {i : Instr} {w : Word} (h : Routes i w) : i.space = .word ∨ i = .dispatch w :=
  h.symm.imp_left space_of_encode_eq_word

/-- Every SCHEMA_ERROR carries the expected sum, 32, and the sum of the list's widths (R102). -/
theorem validate_eq_error {fields : List FieldSpec} {e : SchemaError} (h : validate fields = .error e) :
    e.expected = 32 ∧ e.actual = (fields.map FieldSpec.width).sum := by
  unfold validate at h
  split_ifs at h <;> obtain rfl := Except.error.inj h <;> exact ⟨rfl, rfl⟩

theorem gives_decoded {i : Instr} {s : State} {u : Tag} {lanes : Lanes} (h : Gives i s (.decoded u lanes)) :
    i.space = .word ∨ (∃ w, i = .dispatch w) ∨ ∃ w, i = .decode w u.code := by
  cases h with
  | routed w _ _ hi => exact hi.space_or_dispatch.imp_right fun hi => .inl ⟨w, hi⟩
  | decoded w _ _ hi => exact .inr (.inr ⟨w, hi⟩)

theorem gives_unrecognized {i : Instr} {s : State} {o : Opcode} (h : Gives i s (.unrecognized o)) :
    i.space = .word ∨ ∃ w, i = .dispatch w ∧ o = opcodeOf w := by
  cases h with
  | unrecognized w hi => exact hi.space_or_dispatch.imp_right fun hi => ⟨w, hi, rfl⟩

theorem gives_word {i : Instr} {s : State} {w : Word} (h : Gives i s (.word w)) : ∃ c lanes, i = .encode c lanes := by
  cases h with
  | encoded u lanes _ hi => exact ⟨u.code, lanes, hi⟩

theorem gives_status {i : Instr} {s : State} {w : Word} (h : Gives i s (.status w)) :
    i = .readStatus ∧ w = s.statusWord := by
  cases h with
  | status hi => exact ⟨hi, rfl⟩

theorem gives_schemaError {i : Instr} {s : State} {e : SchemaError} (h : Gives i s (.schemaError e)) :
    e.expected = 32 ∧ ∃ c fields, i = .defineFormat c fields ∧ e.actual = (fields.map FieldSpec.width).sum := by
  cases h with
  | schemaError u fields _ hi _ bad =>
    obtain ⟨hexpected, hactual⟩ := validate_eq_error bad
    exact ⟨hexpected, u.code, fields, hi, hactual⟩

theorem gives_sealRefused {i : Instr} {s : State} {x : SealReason} {c : TagCode} (h : Gives i s (.sealRefused x c)) :
    i = .sealTable ∧ (x = .buildFailed → c = 0) ∧ (x = .missingSchema → ∃ u : Tag, c = u.code ∧ MissingSchema s u) := by
  cases h with
  | sealFailed hi => exact ⟨hi, fun _ => rfl, nofun⟩
  | sealMissing u hi _ missing => exact ⟨hi, nofun, fun _ => ⟨u, rfl, firstMissing_eq_some missing⟩⟩

/-! ## Every instruction has a next state (R87) -/

/-- An outcome that is a next state. -/
def HasNext (r : Result) : Prop := ∃ t, r = .next t

theorem hasNext_respond (r : Response) (s : State) : HasNext (respond r s) := ⟨_, rfl⟩

theorem hasNext_raiseFault (c : FaultCause) (s : State) : HasNext (raiseFault c s) := ⟨_, rfl⟩

theorem hasNext_unlessHalted {s : State} {body : Result} (h : s.fault = none → HasNext body) :
    HasNext (unlessHalted s body) := by
  cases hfault : s.fault with
  | none =>
    rw [unlessHalted_running hfault]
    exact h hfault
  | some c => exact ⟨_, unlessHalted_halted hfault body⟩

theorem hasNext_withTag {c : TagCode} {s : State} {body : Tag → Result} (h : ∀ u, HasNext (body u)) :
    HasNext (withTag c s body) := by
  unfold withTag
  split
  · exact hasNext_raiseFault _ s
  · exact h _

theorem hasNext_unlessBuilt {s : State} {body : Result} (h : HasNext body) : HasNext (unlessBuilt s body) := by
  unfold unlessBuilt
  split
  · exact hasNext_raiseFault _ s
  · exact h

theorem hasNext_withSchema {u : Tag} {s : State} {body : Schema → Result} (h : ∀ schema, HasNext (body schema)) :
    HasNext (withSchema u s body) := by
  unfold withSchema
  split
  · exact hasNext_raiseFault _ s
  · exact h _

theorem hasNext_execDefineFormat (c : TagCode) (fields : List FieldSpec) (s : State) :
    HasNext (execDefineFormat c fields s) := by
  refine hasNext_unlessHalted fun _ => hasNext_withTag fun u => ?_
  split
  · exact hasNext_raiseFault _ s
  · split <;> exact hasNext_respond _ _

theorem hasNext_execRegisterOpcode (o : Opcode) (c : TagCode) (s : State) : HasNext (execRegisterOpcode o c s) := by
  refine hasNext_unlessHalted fun _ => hasNext_withTag fun u => hasNext_unlessBuilt ?_
  split <;> exact hasNext_respond _ _

theorem hasNext_execSeal (s : State) : HasNext (execSeal s) := by
  refine hasNext_unlessHalted fun _ => hasNext_unlessBuilt ?_
  split
  · exact hasNext_respond _ _
  · split <;> exact hasNext_respond _ _

theorem hasNext_execDecode (w : Word) (c : TagCode) (s : State) : HasNext (execDecode w c s) :=
  hasNext_unlessHalted fun _ => hasNext_withTag fun _ => hasNext_withSchema fun _ => hasNext_respond _ _

theorem hasNext_execEncode (c : TagCode) (lanes : Lanes) (s : State) : HasNext (execEncode c lanes s) :=
  hasNext_unlessHalted fun _ => hasNext_withTag fun _ => hasNext_withSchema fun _ => hasNext_respond _ _

/-- Routing a word finds a schema for every entry of a built table: the one stop of the model is shut out by the
invariant (R26, R162). -/
theorem hasNext_route {s : State} (hs : Inv s) (w : Word) : HasNext (route w s) := by
  refine hasNext_unlessHalted fun _ => ?_
  cases hphase : s.phase with
  | uninit => exact hasNext_raiseFault _ s
  | built =>
    cases hentry : s.entryAt (opcodeOf w) with
    | none => exact hasNext_respond _ s
    | some u =>
      obtain ⟨schema, hu⟩ := Option.ne_none_iff_exists'.1 (hs.table_closed hphase _ u hentry)
      simpa [hentry, hu] using hasNext_respond _ s

theorem hasNext_exec {s : State} (hs : Inv s) (i : Instr) : HasNext (exec i s) := by
  cases i with
  | defineFormat c fields => exact hasNext_execDefineFormat c fields s
  | registerOpcode o c => exact hasNext_execRegisterOpcode o c s
  | sealTable => exact hasNext_execSeal s
  | decode w c => exact hasNext_execDecode w c s
  | encode c lanes => exact hasNext_execEncode c lanes s
  | readStatus => exact hasNext_respond _ s
  | reservedCmd => exact hasNext_unlessHalted fun _ => hasNext_raiseFault _ s
  | _ => exact hasNext_route hs _

theorem hasNext_step {s : State} (hs : Inv s) : HasNext (step s) := by
  obtain ⟨p, rest, -, hstep⟩ | ⟨-, -, hstep⟩ | ⟨wanted, x, -, -, hstep⟩ := step_cases s
  · exact ⟨_, hstep⟩
  · exact ⟨_, hstep⟩
  · rw [hstep]
    exact hasNext_exec (hs.of_sameBlock ((sameBlock_popSlot s).trans (sameBlock_serving _ x))) _

/-! ## Every request is answered once (R80, R245) -/

theorem pending_eq_zero_iff {s : State} : pending s = 0 ↔ ∀ l ∈ s.chan.queues, l = [] := by
  simp [pending, List.sum_eq_zero_iff]

theorem pendingOf_eq_zero {s : State} (h : pending s = 0) (q : Nat) : pendingOf q s = 0 := by
  unfold pendingOf
  cases hq : s.chan.queues[q]? with
  | none => rfl
  | some l => simp [pending_eq_zero_iff.1 h l (List.mem_of_getElem? hq)]

/-- A step that serves requester `q`: its oldest request is taken, and one response is given to it. -/
structure Serves (q : Nat) (s t : State) : Prop where
  queues    : ∃ r rest, s.chan.queues[q]? = some (r :: rest) ∧ t.chan.queues = s.chan.queues.set q rest
  responses : ∃ r, t.chan.responses = s.chan.responses ++ [(q, r)]

/-- While a request waits, a step that is no reset serves one (R245). -/
theorem step_serves {s t : State} (hnoReset : NoReset s) (hwaits : pending s ≠ 0) (h : step s = .next t) :
    ∃ q, Serves q s t := by
  obtain ⟨hempty, -⟩ | ⟨wanted, x, htaken, hexec⟩ := step_next_of_not_reset hnoReset.head h
  · exact absurd (pending_eq_zero_iff.2 hempty) hwaits
  · obtain ⟨rest, hhead, hqueues⟩ := arbitrate_eq_some htaken
    exact ⟨x.1, ⟨x.2.1, rest, hhead, (exec_sameRequests hexec).queues.trans hqueues⟩, exec_answers hexec⟩

/-- Taking one requester's oldest request leaves one request less. -/
theorem sum_length_set_tail {queues : List (List Request)} {q : Nat} {r : Request} {rest : List Request}
    (h : queues[q]? = some (r :: rest)) :
    ((queues.set q rest).map List.length).sum + 1 = (queues.map List.length).sum := by
  induction queues generalizing q with
  | nil => simp at h
  | cons l queues ih =>
    cases q with
    | zero =>
      obtain rfl : l = r :: rest := by simpa using h
      simp only [List.set_cons_zero, List.map_cons, List.sum_cons, List.length_cons]
      omega
    | succ q =>
      have hrest := ih (q := q) (by simpa using h)
      simp only [List.set_cons_succ, List.map_cons, List.sum_cons]
      omega

theorem Serves.pending_eq {q : Nat} {s t : State} (h : Serves q s t) : pending t + 1 = pending s := by
  obtain ⟨r, rest, hhead, hqueues⟩ := h.queues
  rw [pending, hqueues, sum_length_set_tail hhead, pending]

theorem Serves.pendingOf_eq {q : Nat} {s t : State} (h : Serves q s t) (p : Nat) :
    pendingOf p t + (if q = p then 1 else 0) = pendingOf p s := by
  obtain ⟨r, rest, hhead, hqueues⟩ := h.queues
  by_cases hp : q = p
  · subst hp
    obtain ⟨hlt, -⟩ := List.getElem?_eq_some_iff.1 hhead
    simp [pendingOf, hqueues, List.getElem?_set_self hlt, hhead]
  · simp [pendingOf, hqueues, hp]

theorem Serves.answersTo_eq {q : Nat} {s t : State} (h : Serves q s t) (p : Nat) :
    answersTo p t = answersTo p s + (if q = p then 1 else 0) := by
  obtain ⟨answer, hresponses⟩ := h.responses
  by_cases hp : q = p <;> simp [answersTo, hresponses, hp]

/-- What a requester waits for and what it has received, taken together, stay the same: the one served loses a request
and gains a response. -/
theorem Serves.answersTo_add_pendingOf {q : Nat} {s t : State} (h : Serves q s t) (p : Nat) :
    answersTo p t + pendingOf p t = answersTo p s + pendingOf p s := by
  have hpending := h.pendingOf_eq p
  have hanswers := h.answersTo_eq p
  omega

/-- As many steps as requests wait leave none waiting, each answered to its requester. -/
theorem run_answers_all {n : Nat} {s : State} (hs : Inv s) (hnoReset : NoReset s) (hn : pending s = n) :
    ∃ t, core.run n s = .next t ∧ pending t = 0 ∧ ∀ q, answersTo q t = answersTo q s + pendingOf q s := by
  induction n generalizing s with
  | zero => exact ⟨s, rfl, hn, fun q => by rw [pendingOf_eq_zero hn, Nat.add_zero]⟩
  | succ n ih =>
    obtain ⟨u, hstep⟩ := hasNext_step hs
    obtain ⟨p, hserves⟩ := step_serves hnoReset (by omega) hstep
    have hpending : pending u + 1 = pending s := hserves.pending_eq
    obtain ⟨t, hrun, hnone, hanswers⟩ := ih (step_inv hs hstep) (hnoReset.step hstep) (by omega)
    refine ⟨t, (run_succ_eq_next (M := core)).2 ⟨u, hstep, hrun⟩, hnone, fun q => ?_⟩
    rw [hanswers, hserves.answersTo_add_pendingOf]

/-! ## Written records (R86) -/

/-- In a record that names no field twice, looking a field up finds its entry. -/
theorem lookup_eq_some_of_mem {record : List (String × Word)} (hnodup : (record.map Prod.fst).Nodup) {name : String}
    {v : Word} (h : (name, v) ∈ record) : record.lookup name = some v := by
  obtain ⟨before, after, rfl⟩ := List.append_of_mem h
  refine List.lookup_eq_some_iff.2 ⟨before, after, rfl, fun e he => ?_⟩
  rw [List.map_append, List.map_cons, List.nodup_append] at hnodup
  obtain ⟨-, -, hdisjoint⟩ := hnodup
  exact bne_iff_ne.2 (hdisjoint e.1 (List.mem_map_of_mem he) name List.mem_cons_self).symm

theorem lookup_eq_none_of_not_mem {record : List (String × Word)} {name : String}
    (h : name ∉ record.map Prod.fst) : record.lookup name = none := by
  refine List.lookup_eq_none_iff.2 fun e he => bne_iff_ne.2 ?_
  rintro rfl
  exact h (List.mem_map_of_mem he)

/-- The lane a written record sets at a position: its value for the field there, else 0. -/
def laneOfRecord (schema : Schema) (record : List (String × Word)) (k : Nat) : Word :=
  match schema[k]? with
  | some f => (record.lookup f.name).getD 0
  | none => 0

/-- A record that names fields of a schema with distinct names is accepted, lane by lane. -/
theorem lanesOfRecord_eq_some {schema : Schema} {record : List (String × Word)}
    (hdistinct : namesDistinct schema = true) (hnamed : ∀ e ∈ record, e.1 ∈ schema.map FieldSpec.name) :
    lanesOfRecord schema record = some (Vector.ofFn fun k => laneOfRecord schema record k) := by
  have hall : record.all (fun e => (schema.map FieldSpec.name).contains e.1) = true :=
    List.all_eq_true.2 fun e he => List.contains_iff_mem.2 (hnamed e he)
  rw [lanesOfRecord, hdistinct, hall, Bool.and_self, if_pos rfl]
  rfl

/-- A written ENCODE is ENCODE of its record's lanes, under the schema its writer knows for the tag. -/
theorem assemble_encode {known : Tag → Option Schema} {t : Tag} {schema : Schema} (hknown : known t = some schema)
    (record : List (String × Word)) :
    (AsmCommand.encode t.code record).assemble known = (lanesOfRecord schema record).map (Instr.encode t.code) := by
  simp [AsmCommand.assemble, hknown]

theorem ValidSchema.length_le {schema : Schema} (h : ValidSchema schema) : schema.length ≤ 32 :=
  h.total ▸ length_le_widthSum h.positive

theorem recordOfLanes_length {schema : Schema} (h : schema.length ≤ 32) (lanes : Lanes) :
    (recordOfLanes schema lanes).length = schema.length := by
  simp [recordOfLanes, h]

theorem recordOfLanes_getElem? {schema : Schema} {k : Nat} {f : FieldSpec} (hf : schema[k]? = some f) (lanes : Lanes)
    (hk : k < 32) : (recordOfLanes schema lanes)[k]? = some (f.name, lanes[k]) := by
  simp [recordOfLanes, List.getElem?_zip_eq_some, hf, hk]

end Sys2Proof.Machine

open Sys2Proof Sys2Proof.Machine

/-- Settles O1, instruction by instruction: a command by its code, a row by its layout. -/
theorem decodeOfEncodeIsTheInstruction : Obligations.DecodeOfEncodeIsTheInstruction := fun _ => decode_encode

/-- Settles O2: each row's layout puts a word's fields back where they were. -/
theorem everyWordIsOneRowAndNoBitIsLost : Obligations.EveryWordIsOneRowAndNoBitIsLost := fun w =>
  ⟨rowOfWord_wellFormed w, rowOfWord_space w, encode_rowOfWord w⟩

/-- Settles O55, by induction on the number of waiting requests: under the invariant each step performs one, and what
a requester waits for and what it has received keep their sum. -/
theorem everyRequestIsAnsweredOnce : Obligations.EveryRequestIsAnsweredOnce := fun _ hs hnoReset =>
  run_answers_all hs hnoReset rfl

/-- Settles O27: the I layout's fields are the fields of the default I schema. -/
theorem iFormatRowsUnpackUnderTheDefaults : Obligations.IFormatRowsUnpackUnderTheDefaults := by
  intro s rd funct3 rs1 imm0 hinUse defined
  have unpack (o : Opcode) (i : Instr) (hi : encode i = .word (wordI o rd funct3 rs1 imm0)) :=
    exec_of_row hi (fields_of_wordI o rd funct3 rs1 imm0).1 (decodeRecord_wordI o rd funct3 rs1 imm0) hinUse defined
  exact ⟨unpack 0x03 _ rfl, unpack 0x0F _ rfl, unpack 0x13 _ rfl, unpack 0x67 _ rfl, unpack 0x73 _ rfl⟩

/-- Settles O28: the U layout's fields are the fields of the default U schema. -/
theorem uFormatRowsUnpackUnderTheDefaults : Obligations.UFormatRowsUnpackUnderTheDefaults := by
  intro s rd imm0 hinUse defined
  have unpack (o : Opcode) (i : Instr) (hi : encode i = .word (wordU o rd imm0)) :=
    exec_of_row hi (fields_of_wordU o rd imm0).1 (decodeRecord_wordU o rd imm0) hinUse defined
  exact ⟨unpack 0x17 _ rfl, unpack 0x37 _ rfl⟩

/-- Settles O29: the S and R layouts' fields are the fields of the default S and R schemas. -/
theorem sAndRFormatRowsUnpackUnderTheDefaults : Obligations.SAndRFormatRowsUnpackUnderTheDefaults := by
  intro s a funct3 rs1 rs2 top hinUse
  refine ⟨fun taken defined => ?_, fun taken defined => ?_⟩
  · exact exec_of_row rfl (fields_of_wordS ..).1 (decodeRecord_wordS ..) hinUse defined taken
  · exact exec_of_row rfl (fields_of_wordR ..).1 (decodeRecord_wordR ..) hinUse defined taken

/-- Settles O30: the B layout's eight pieces are the fields of the default B schema. -/
theorem bFormatRowUnpacksUnderTheDefaults : Obligations.BFormatRowUnpacksUnderTheDefaults := by
  intro s imm0 imm1 funct3 rs1 rs2 imm2 imm3 hinUse taken defined
  exact exec_of_row rfl (fields_of_wordB ..).1 (decodeRecord_wordB ..) hinUse defined taken

/-- Settles O31: the J layout's fields are the fields of the J list. -/
theorem jFormatRowsUnpack : Obligations.JFormatRowsUnpack := by
  intro s rd imm0 imm1 imm2 imm3 hinUse defined
  have unpack (o : Opcode) (i : Instr) (hi : encode i = .word (wordJ o rd imm0 imm1 imm2 imm3)) :=
    exec_of_row hi (fields_of_wordJ o rd imm0 imm1 imm2 imm3).1 (decodeRecord_wordJ o rd imm0 imm1 imm2 imm3) hinUse
      defined
  exact ⟨unpack 0x3C _ rfl, unpack 0x6F _ rfl⟩

/-- Settles O33: each effect of an instruction ends in one answer and leaves requests and schedule. -/
theorem everyCommandAnswersExactlyOnce : Obligations.EveryCommandAnswersExactlyOnce := fun _ _ _ h =>
  ⟨exec_answers h, exec_sameRequests h⟩

/-- Settles O41: OK and DUPLICATE_OPCODE come with a write, every other response but FAULT is given without one, by
the commands whose condition it names. -/
theorem responsesComeFromTheirCommands : Obligations.ResponsesComeFromTheirCommands := by
  intro i s t r h hanswer
  have gives := exec_gives h hanswer
  refine ⟨?_, ?_, ?_, ?_, ?_, ?_, ?_, ?_⟩
  · rintro rfl
    exact exec_ok h hanswer
  · rintro u lanes rfl
    exact gives_decoded (gives nofun nofun nofun)
  · rintro o rfl
    exact gives_unrecognized (gives nofun nofun nofun)
  · rintro w rfl
    exact gives_word (gives nofun nofun nofun)
  · rintro w rfl
    exact gives_status (gives nofun nofun nofun)
  · rintro e rfl
    exact gives_schemaError (gives nofun nofun nofun)
  · rintro o existing rfl
    exact exec_duplicateOpcode h hanswer
  · rintro x c rfl
    exact gives_sealRefused (gives nofun nofun nofun)

/-- Settles O50: routing is the only meaning that can stop, and the invariant gives it a schema. -/
theorem nothingStopsUnderTheInvariant : Obligations.NothingStopsUnderTheInvariant := fun _ hs =>
  ⟨hasNext_exec hs, hasNext_step hs⟩

/-- Settles O58: a record without repeated names is looked up field by field, and a valid schema has a lane for every
field. -/
theorem writtenRecordsSetTheNamedLanes : Obligations.WrittenRecordsSetTheNamedLanes := by
  intro known t schema hknown hvalid hdistinct
  refine ⟨fun record hnodup hnamed => ?_, fun lanes => ⟨recordOfLanes_length hvalid.length_le lanes,
    fun k hk f hf => recordOfLanes_getElem? hf lanes hk⟩⟩
  refine ⟨Vector.ofFn fun k => laneOfRecord schema record k, ?_, fun k hk => ?_⟩
  · rw [assemble_encode hknown, lanesOfRecord_eq_some hdistinct hnamed, Option.map_some]
  · rw [Vector.getElem_ofFn]
    refine ⟨fun f v hf hmem => ?_, fun f hf hmem => ?_, fun hbeyond => ?_⟩
    · simp [laneOfRecord, hf, lookup_eq_some_of_mem hnodup hmem]
    · simp [laneOfRecord, hf, lookup_eq_none_of_not_mem hmem]
    · simp [laneOfRecord, List.getElem?_eq_none hbeyond]

/-- Settles O3: the codes one by one, and the reserved command in a running block. -/
theorem commandCodesSelectTheCommands : Obligations.CommandCodesSelectTheCommands := fun _ =>
  ⟨rfl, rfl, rfl, rfl, rfl, rfl, rfl, rfl, fun _ running => unlessHalted_running running _⟩

/-- Settles O4: the codes one by one, and the reserved-tag check of each command with a tag. -/
theorem tagCodesNameTheFormats : Obligations.TagCodesNameTheFormats := by
  refine ⟨rfl, rfl, rfl, rfl, rfl, rfl, fun c reserved => ⟨Tag.ofCode?_eq_none.2 reserved, ?_⟩⟩
  intro s fields opcode word lanes running
  have faults (body : Tag → Result) : unlessHalted s (withTag c s body) = raiseFault .reservedTag s := by
    rw [unlessHalted_running running, withTag_reserved reserved]
  exact ⟨faults _, faults _, faults _, faults _⟩

/-- Settles O5: masking with 127 and taking the low 7 bits are both the remainder by 128. -/
theorem opcodeIsTheLowSevenBits : Obligations.OpcodeIsTheLowSevenBits := by
  intro w
  have hmask : (w &&& 0b1111111#32).toNat = w.toNat % 128 := and_mask_toNat w 7
  exact ⟨(opcodeOf_toNat w).trans hmask.symm, opcodeOf_toNat w⟩

/-- Settles O6: the twelve requests decoded one by one. -/
theorem sampleRequestsDecode : Obligations.SampleRequestsDecode := by
  unfold Obligations.SampleRequestsDecode
  decide

/-- Settles O7, from the code tables. -/
theorem responseAndCauseCodes : Obligations.ResponseAndCauseCodes :=
  ⟨fun _ _ _ _ _ _ _ _ => ⟨rfl, rfl, rfl, rfl, rfl, rfl, rfl, rfl, rfl⟩, ⟨rfl, rfl, rfl⟩, ⟨rfl, rfl⟩,
    rfl, rfl, rfl, rfl, rfl, rfl⟩

/-- Settles O24: the halted check comes first, and a running block raises the fault. -/
theorem reservedCommandFaults : Obligations.ReservedCommandFaults := fun _ =>
  ⟨fun running => unlessHalted_running running _, fun _ latched => unlessHalted_halted latched _⟩

end

section
/-! Proofs of 40_format_schema.md. What validation answers (R102), the bounds it puts on a schema (R103), and
DEFINE_FORMAT case by case (R105). -/

namespace Sys2Proof.Machine

/-! ## What validation answers (R102) -/

theorem validate_nil : validate [] = .error ⟨.empty, 32, widthSum []⟩ := rfl

theorem validate_of_zeroWidth {fields : List FieldSpec} (hne : fields ≠ []) (hzero : ∃ f ∈ fields, f.width = 0) :
    validate fields = .error ⟨.zeroWidth, 32, widthSum fields⟩ := by
  have hany : fields.any (fun f => f.width == 0) = true := by simpa using hzero
  rw [validate, if_neg hne, if_pos hany]

theorem validate_of_widthSum_ne {fields : List FieldSpec} (hne : fields ≠ []) (hwidths : ∀ f ∈ fields, f.width ≠ 0)
    (hsum : widthSum fields ≠ 32) : validate fields = .error ⟨.widthSum, 32, widthSum fields⟩ := by
  have hany : ¬ fields.any (fun f => f.width == 0) = true := by simpa using hwidths
  rw [validate, if_neg hne, if_neg hany, if_pos hsum]

theorem validate_of_widthSum_eq {fields : List FieldSpec} (hne : fields ≠ []) (hwidths : ∀ f ∈ fields, f.width ≠ 0)
    (hsum : widthSum fields = 32) : validate fields = .ok fields :=
  validate_eq_ok.2 ⟨rfl, hne, fun f hf => Nat.one_le_iff_ne_zero.2 (hwidths f hf), hsum⟩

/-! ## The bounds of a valid schema (R103) -/

/-- The fields beside one field are at least one bit wide each, so a field's width and the number of the others fit in
the 32 bits together. -/
theorem ValidSchema.length_add_width_le {schema : Schema} (h : ValidSchema schema) {f : FieldSpec} (hf : f ∈ schema) :
    schema.length + f.width ≤ 33 := by
  obtain ⟨before, after, rfl⟩ := List.append_of_mem hf
  have hbefore := length_le_widthSum fun g (hg : g ∈ before) => h.positive g (by simp [hg])
  have hafter := length_le_widthSum fun g (hg : g ∈ after) => h.positive g (by simp [hg])
  have htotal := h.total
  simp only [List.map_append, List.map_cons, List.sum_append, List.sum_cons] at htotal
  simp only [List.length_append, List.length_cons]
  omega

theorem ValidSchema.one_le_length {schema : Schema} (h : ValidSchema schema) : 1 ≤ schema.length :=
  List.length_pos_iff.2 h.nonempty

theorem ValidSchema.width_eq_of_length_eq_one {schema : Schema} (h : ValidSchema schema) (hone : schema.length = 1) :
    ∀ f ∈ schema, f.width = 32 := by
  obtain ⟨g, rfl⟩ := List.length_eq_one_iff.1 hone
  simpa using h.total

/-! ## DEFINE_FORMAT past the halted and the reserved-tag check (R105) -/

section DefineFormat
variable {s : State} {t : Tag} {fields : List FieldSpec}

theorem exec_defineFormat_taken (running : s.fault = none) (taken : s.schemaAt t ≠ none) :
    exec (.defineFormat t.code fields) s = raiseFault .schemaRedefined s := by
  rw [exec, execDefineFormat, unlessHalted_running running, withTag_code,
    if_pos (Option.isSome_iff_ne_none.2 taken)]

theorem exec_defineFormat_rejected {e : SchemaError} (running : s.fault = none) (empty : s.schemaAt t = none)
    (bad : validate fields = .error e) :
    exec (.defineFormat t.code fields) s = .next (s.answer (.schemaError e)) := by
  simp [exec, execDefineFormat, unlessHalted_running running, withTag_code, empty, bad]

theorem exec_defineFormat_accepted (running : s.fault = none) (empty : s.schemaAt t = none)
    (good : validate fields = .ok fields) :
    exec (.defineFormat t.code fields) s = .next ((s.putSchema t fields).answer .ok) := by
  simp [exec, execDefineFormat, unlessHalted_running running, withTag_code, empty, good]

end DefineFormat

end Sys2Proof.Machine

open Sys2Proof Sys2Proof.Machine

/-- Settles O16: the checks in their order, halted, reserved tag, slot taken, then each answer of validation; on OK one
slot is put and the others keep what they hold. -/
theorem defineFormatByCases : Obligations.DefineFormatByCases := by
  refine ⟨fun _ => rfl, fun s c fields => ⟨fun x latched => unlessHalted_halted latched _, ?_, ?_⟩⟩
  · intro running reserved
    exact (unlessHalted_running running _).trans (withTag_reserved reserved s _)
  · rintro t rfl running
    refine ⟨exec_defineFormat_taken running, fun empty => ?_⟩
    have rejected {e : SchemaError} := exec_defineFormat_rejected (fields := fields) (e := e) running empty
    refine ⟨?_, fun hne hzero => rejected (validate_of_zeroWidth hne hzero),
      fun hne hwidths hsum => rejected (validate_of_widthSum_ne hne hwidths hsum), fun hne hwidths hsum => ?_⟩
    · rintro rfl
      exact rejected validate_nil
    · exact ⟨exec_defineFormat_accepted running empty (validate_of_widthSum_eq hne hwidths hsum),
        by simp [putSchema_schemaAt], fun u hu => by simp [putSchema_schemaAt, hu], rfl, rfl, rfl, rfl, rfl⟩

/-- Settles O9: what validation accepts is a valid schema, whose number of fields bounds each width. -/
theorem validSchemaBounds : Obligations.ValidSchemaBounds := by
  intro fields S haccepted
  obtain ⟨rfl, valid⟩ := validate_eq_ok.1 haccepted
  have hlength := valid.one_le_length
  refine ⟨⟨hlength, valid.length_le⟩, fun f hf => ⟨valid.positive f hf, ?_⟩, fun hmax f hf => ?_,
    valid.width_eq_of_length_eq_one⟩
  · have hbound := valid.length_add_width_le hf
    omega
  · have hbound := valid.length_add_width_le hf
    have hpositive := valid.positive f hf
    omega

/-- Settles O8: the four answers of validation, in the order of its checks. -/
theorem validationReportsTheFirstReason : Obligations.ValidationReportsTheFirstReason := by
  intro fields
  refine ⟨?_, validate_of_zeroWidth, validate_of_widthSum_ne, validate_of_widthSum_eq⟩
  rintro rfl
  exact validate_nil

end

section
/-! Proofs of 41_codec.md. What decode delivers lane by lane (R131), encode as a sum (R132), the two round trips (R133,
R134), lane 0 and the opcode (R139), and DECODE and ENCODE case by case (R136, R137). -/

namespace Sys2Proof.Machine

/-! ## Decode, lane by lane (R131) -/

theorem decodeRecord_getElem_of_field {schema : Schema} {k : Nat} {f : FieldSpec} (hf : schema[k]? = some f)
    (word : Word) (hk : k < 32) : (decodeRecord word schema)[k] = fieldAt word (fieldOffset schema k) f.width := by
  rw [decodeRecord_getElem, hf, Option.map_some, Option.getD_some]

theorem decodeRecord_getElem_of_beyond {schema : Schema} {k : Nat} (hbeyond : schema.length ≤ k) (word : Word)
    (hk : k < 32) : (decodeRecord word schema)[k] = 0 := by
  rw [decodeRecord_getElem, List.getElem?_eq_none hbeyond, Option.map_none, Option.getD_none]

/-! ## Encode as a sum (R132) -/

/-- The fields of a valid schema fit the word from bit 0 on, as the lemmas on encode's loop ask. -/
theorem ValidSchema.fits {schema : Schema} (h : ValidSchema schema) :
    0 + (schema.map FieldSpec.width).sum ≤ 32 := by
  rw [h.total]

/-- The loop of encode from a cursor on: each value, cut to its field's width, at the cursor moved up by the fields
below. -/
theorem packFields_eq_sum (schema : Schema) (cursor : Nat) (lanes : List Word)
    (hfits : cursor + (schema.map FieldSpec.width).sum ≤ 32) :
    (packFields cursor lanes schema).toNat =
      ((List.range schema.length).map fun k => (lanes.getD k 0).toNat % 2 ^ ((schema.map FieldSpec.width).getD k 0) *
        2 ^ (cursor + fieldOffset schema k)).sum := by
  induction schema generalizing cursor lanes with
  | nil => cases lanes <;> rfl
  | cons f rest ih =>
    cases lanes with
    | nil => simp [packFields]
    | cons v lanes =>
      rw [packFields_cons_toNat cursor v lanes f rest hfits]
      simp only [List.map_cons, List.sum_cons] at hfits
      rw [ih (cursor + f.width) lanes (by omega), List.length_cons, List.range_succ_eq_map, List.map_cons,
        List.sum_cons, List.map_map]
      simp [Function.comp_def, Nat.add_assoc]

/-! ## Word first (R133) -/

/-- Two neighbouring bit ranges of a number, each at its place, are the range they make together. -/
theorem adjacent_ranges (n cursor low high : Nat) :
    n / 2 ^ cursor % 2 ^ low * 2 ^ cursor + n / 2 ^ (cursor + low) % 2 ^ high * 2 ^ (cursor + low) =
      n / 2 ^ cursor % 2 ^ (low + high) * 2 ^ cursor := by
  rw [Nat.pow_add 2 low high, Nat.mod_mul, Nat.pow_add 2 cursor low, ← Nat.div_div_eq_div_mul]
  ring

/-- Encode's loop over the values that decode's loop reads from the same cursor puts back the bits that the fields
cover; lanes after the fields' values are not read. -/
theorem packFields_fieldValues (word : Word) (beyond : List Word) (schema : Schema) (cursor : Nat)
    (hfits : cursor + (schema.map FieldSpec.width).sum ≤ 32) :
    (packFields cursor (fieldValues word cursor schema ++ beyond) schema).toNat =
      word.toNat / 2 ^ cursor % 2 ^ (schema.map FieldSpec.width).sum * 2 ^ cursor := by
  induction schema generalizing cursor with
  | nil => simp [packFields, Nat.mod_one]
  | cons f rest ih =>
    rw [fieldValues, List.cons_append, packFields_cons_toNat _ _ _ _ _ hfits]
    simp only [List.map_cons, List.sum_cons] at hfits ⊢
    rw [ih (cursor + f.width) (by omega), fieldAt_toNat, Nat.mod_mod, adjacent_ranges]

/-! ## Record first (R134) -/

/-- The field that encode's loop puts at the cursor is read back from there, cut to its width. -/
theorem fieldAt_packFields_cons_self (cursor : Nat) (v : Word) (lanes : List Word) (f : FieldSpec) (rest : Schema)
    (hfits : cursor + ((f :: rest).map FieldSpec.width).sum ≤ 32) :
    fieldAt (packFields cursor (v :: lanes) (f :: rest)) cursor f.width = v &&& mask f.width := by
  apply BitVec.eq_of_toNat_eq
  rw [fieldAt_toNat, packFields_cons_toNat _ _ _ _ _ hfits, and_mask_toNat]
  simp only [List.map_cons, List.sum_cons] at hfits
  obtain ⟨m, hm⟩ := packFields_dvd rest (cursor + f.width) lanes (by omega)
  have hplace : v.toNat % 2 ^ f.width * 2 ^ cursor + 2 ^ (cursor + f.width) * m =
      2 ^ cursor * (v.toNat % 2 ^ f.width + 2 ^ f.width * m) := by ring
  rw [hm, hplace, Nat.mul_div_cancel_left _ (Nat.two_pow_pos _), Nat.add_mul_mod_self_left, Nat.mod_mod]

/-- Above the field at the cursor, what encode's loop packs is what it packs from the next cursor on. -/
theorem fieldAt_packFields_cons_above (cursor : Nat) (v : Word) (lanes : List Word) (f : FieldSpec) (rest : Schema)
    (hfits : cursor + ((f :: rest).map FieldSpec.width).sum ≤ 32) (offset width : Nat) :
    fieldAt (packFields cursor (v :: lanes) (f :: rest)) (cursor + f.width + offset) width =
      fieldAt (packFields (cursor + f.width) lanes rest) (cursor + f.width + offset) width := by
  apply BitVec.eq_of_toNat_eq
  rw [fieldAt_toNat, fieldAt_toNat, packFields_cons_toNat _ _ _ _ _ hfits]
  simp only [List.map_cons, List.sum_cons] at hfits
  obtain ⟨m, hm⟩ := packFields_dvd rest (cursor + f.width) lanes (by omega)
  have hbelow : v.toNat % 2 ^ f.width * 2 ^ cursor < 2 ^ (cursor + f.width) := by
    rw [Nat.pow_add, Nat.mul_comm]
    exact Nat.mul_lt_mul_of_pos_left (Nat.mod_lt _ (Nat.two_pow_pos _)) (Nat.two_pow_pos _)
  rw [hm, Nat.pow_add 2 _ offset, ← Nat.div_div_eq_div_mul, ← Nat.div_div_eq_div_mul,
    Nat.add_mul_div_left _ _ (Nat.two_pow_pos _), Nat.div_eq_of_lt hbelow, Nat.zero_add,
    Nat.mul_div_cancel_left _ (Nat.two_pow_pos _)]

/-- A field of a packed word is the lane it was packed from, cut to its width. -/
theorem fieldAt_packFields (schema : Schema) (cursor : Nat) (lanes : List Word)
    (hfits : cursor + (schema.map FieldSpec.width).sum ≤ 32) {k : Nat} {f : FieldSpec} {v : Word}
    (hf : schema[k]? = some f) (hv : lanes[k]? = some v) :
    fieldAt (packFields cursor lanes schema) (cursor + fieldOffset schema k) f.width = v &&& mask f.width := by
  induction schema generalizing cursor lanes k with
  | nil => exact nomatch hf
  | cons g rest ih =>
    cases lanes with
    | nil => exact nomatch hv
    | cons u lanes =>
      cases k with
      | zero =>
        obtain rfl := Option.some.inj hf
        obtain rfl := Option.some.inj hv
        exact fieldAt_packFields_cons_self cursor u lanes g rest hfits
      | succ k =>
        rw [fieldOffset_cons, ← Nat.add_assoc, fieldAt_packFields_cons_above cursor u lanes g rest hfits]
        simp only [List.map_cons, List.sum_cons] at hfits
        exact ih (cursor + g.width) lanes (by omega) hf hv

theorem decodeRecord_encodeRecord_getElem {schema : Schema} (valid : ValidSchema schema) (lanes : Lanes) {k : Nat}
    {f : FieldSpec} (hf : schema[k]? = some f) (hk : k < 32) :
    (decodeRecord (encodeRecord lanes schema) schema)[k] = lanes[k] &&& mask f.width := by
  have hlane : lanes.toList[k]? = some lanes[k] := by simp [hk]
  have hread := fieldAt_packFields schema 0 lanes.toList valid.fits hf hlane
  rwa [Nat.zero_add, ← encodeRecord, ← decodeRecord_getElem_of_field hf _ hk] at hread

theorem and_mask_eq_self_iff {v : Word} {width : Nat} : v &&& mask width = v ↔ v.toNat < 2 ^ width := by
  rw [← BitVec.toNat_inj, and_mask_toNat, Nat.mod_eq_iff_lt (Nat.two_pow_pos _).ne']

end Sys2Proof.Machine

open Sys2Proof Sys2Proof.Machine

/-- Settles O13, by induction on the schema: encode's loop puts each field back at the cursor where decode's loop read
it, and the fields of a valid schema cover all 32 bits. -/
theorem encodeOfDecodeIsTheWord : Obligations.EncodeOfDecodeIsTheWord := by
  intro w schema valid
  apply BitVec.eq_of_toNat_eq
  rw [encodeRecord, decodeRecord_toList w schema valid.length_le,
    packFields_fieldValues w _ schema 0 valid.fits, valid.total]
  simpa using Nat.mod_eq_of_lt w.isLt

/-- Settles O11: a lane of a field is that field's bits, and no value stands beyond the fields. -/
theorem decodeDeliversEachField : Obligations.DecodeDeliversEachField := by
  intro w schema _ k hk
  refine ⟨fun f hf => ?_, fun hbeyond => decodeRecord_getElem_of_beyond hbeyond w hk⟩
  rw [decodeRecord_getElem_of_field hf w hk, fieldAt_toNat]

/-- Settles O12: encode's loop from cursor 0, with the whole word to fill. -/
theorem encodeAddsEachFieldAtItsPlace : Obligations.EncodeAddsEachFieldAtItsPlace := by
  intro lanes schema valid
  simpa only [encodeRecord, Nat.zero_add] using packFields_eq_sum schema 0 lanes.toList valid.fits

/-- Settles O14: each field is read back where it was packed, and a lane is its own low bits when it fits. -/
theorem decodeOfEncodeCutsEachLane : Obligations.DecodeOfEncodeCutsEachLane := by
  intro lanes schema valid
  have cut {k : Nat} {f : FieldSpec} (hf : schema[k]? = some f) := decodeRecord_encodeRecord_getElem valid lanes hf
  have beyond {k : Nat} (h : schema.length ≤ k) := decodeRecord_getElem_of_beyond h (encodeRecord lanes schema)
  refine ⟨fun k hk => ⟨fun f hf => cut hf hk, fun h => beyond h hk⟩, fun hsame k hk => ?_, fun hfits => ?_⟩
  · refine ⟨fun f hf => and_mask_eq_self_iff.1 ?_, fun h => ?_⟩
    · rw [← cut hf hk, hsame]
    · rw [← beyond h hk, hsame]
  · refine Vector.ext fun k hk => ?_
    obtain ⟨hfield, hbeyond⟩ := hfits k hk
    cases hf : schema[k]? with
    | some f => rw [cut hf hk, and_mask_eq_self_iff.2 (hfield f hf)]
    | none =>
      have h := List.getElem?_eq_none_iff.1 hf
      rw [beyond h hk, hbeyond h]

/-- Settles O15: field 0 begins at bit 0, and so does the opcode. -/
theorem firstLaneOfSevenBitsIsTheOpcode : Obligations.FirstLaneOfSevenBitsIsTheOpcode := by
  intro w f rest _
  have hlane : (decodeRecord w (f :: rest))[0] = fieldAt w 0 f.width :=
    decodeRecord_getElem_of_field (schema := f :: rest) rfl w (by decide)
  refine ⟨fun hseven => ?_, ?_⟩
  · rw [hlane, hseven, fieldAt_eq_extractLsb', extractLsb'_opcode]
  · rw [hlane, fieldAt_toNat, Nat.pow_zero, Nat.div_one]

/-- Settles O10: no width up to 32 overflows the word. -/
theorem maskIsExact : Obligations.MaskIsExact :=
  ⟨fun w _ hw => by rw [mask_toNat, Nat.min_eq_left hw], rfl⟩

/-- Settles O20: the checks in their order, halted, reserved tag, empty slot. -/
theorem decodeByCases : Obligations.DecodeByCases := by
  refine ⟨fun _ => rfl, fun s w c => ⟨fun x latched => exec_of_halted latched nofun,
    fun running reserved => ?_, ?_⟩⟩
  · exact exec_of_raises rfl running (.reservedTag c reserved (.decode w c))
  · rintro t rfl running
    exact ⟨fun empty => exec_of_raises rfl running (.decodeUndefined w t rfl empty),
      fun schema defined => exec_of_gives rfl (.decoded w t schema rfl running defined)⟩

/-- Settles O21: the checks in their order, halted, reserved tag, empty slot. -/
theorem encodeByCases : Obligations.EncodeByCases := by
  refine ⟨fun _ => rfl, fun s c lanes => ⟨fun x latched => exec_of_halted latched nofun,
    fun running reserved => ?_, ?_⟩⟩
  · exact exec_of_raises rfl running (.reservedTag c reserved (.encode c lanes))
  · rintro t rfl running
    exact ⟨fun empty => exec_of_raises rfl running (.encodeUndefined t lanes rfl empty),
      fun schema defined => exec_of_gives rfl (.encoded t lanes schema rfl running defined)⟩

end

section
/-! Proofs of 42_dispatcher.md. REGISTER_OPCODE (R160), SEAL (R161), DISPATCH and the rows of the word space (R162),
READ_STATUS (R163), and DISPATCH as DECODE with the table's tag (R164). -/

namespace Sys2Proof.Machine

/-! ## The table-write check (R203 check 5) -/

theorem unlessBuilt_built {s : State} (built : s.phase = .built) (body : Result) :
    unlessBuilt s body = raiseFault .tableWriteAfterBuilt s := by
  rw [unlessBuilt, built]

theorem unlessBuilt_uninit {s : State} (uninit : s.phase = .uninit) (body : Result) : unlessBuilt s body = body := by
  rw [unlessBuilt, uninit]

/-! ## REGISTER_OPCODE past the halted and the reserved-tag check (R160) -/

section RegisterOpcode
variable {s : State} {o : Opcode} {t : Tag}

theorem exec_registerOpcode_built (running : s.fault = none) (built : s.phase = .built) :
    exec (.registerOpcode o t.code) s = raiseFault .tableWriteAfterBuilt s := by
  rw [exec, execRegisterOpcode, unlessHalted_running running, withTag_code, unlessBuilt_built built]

theorem exec_registerOpcode_taken {existing : Tag} (running : s.fault = none) (uninit : s.phase = .uninit)
    (taken : s.entryAt o = some existing) :
    exec (.registerOpcode o t.code) s =
      .next (State.answer { s with buildFailed := true } (.duplicateOpcode o existing)) := by
  simp [exec, execRegisterOpcode, unlessHalted_running running, withTag_code, unlessBuilt_uninit uninit, taken]

theorem exec_registerOpcode_free (running : s.fault = none) (uninit : s.phase = .uninit)
    (free : s.entryAt o = none) :
    exec (.registerOpcode o t.code) s = .next ((s.putEntry o t).answer .ok) := by
  simp [exec, execRegisterOpcode, unlessHalted_running running, withTag_code, unlessBuilt_uninit uninit, free]

end RegisterOpcode

/-! ## SEAL past the halted check (R161) -/

theorem Tag.mem_allTags (t : Tag) : t ∈ Config.allTags := by cases t <;> decide

theorem Tag.code_toNat_injective {t u : Tag} (h : t.code.toNat = u.code.toNat) : t = u := by
  have hcode : Tag.ofCode? t.code = Tag.ofCode? u.code := congrArg Tag.ofCode? (BitVec.eq_of_toNat_eq h)
  simpa using hcode

/-- The formats are searched in the order of their codes (R83, R161). -/
theorem allTags_pairwise_code_lt : Config.allTags.Pairwise fun t u => t.code.toNat < u.code.toNat := by decide

/-- The search for a missing schema tests what SEAL calls missing. -/
theorem missing_test_iff {s : State} {t : Tag} :
    (s.tableNames t && (s.schemaAt t).isNone) = true ↔ MissingSchema s t := by
  rw [Bool.and_eq_true, tableNames_iff, Option.isNone_iff_eq_none, MissingSchema]

/-- The search runs through the tags in order, so no missing format has a lower code than the one it finds. -/
theorem firstMissing_code_le {s : State} {t u : Tag} (hfound : firstMissing s = some u) (missing : MissingSchema s t) :
    u.code.toNat ≤ t.code.toNat := by
  obtain ⟨-, before, after, hsplit, hbefore⟩ := List.find?_eq_some_iff_append.1 hfound
  have hordered := allTags_pairwise_code_lt
  have ht := Tag.mem_allTags t
  rw [hsplit] at hordered ht
  obtain ⟨-, htail, -⟩ := List.pairwise_append.1 hordered
  obtain ⟨habove, -⟩ := List.pairwise_cons.1 htail
  obtain hlow | hsame | hhigh : t ∈ before ∨ t = u ∨ t ∈ after := by simpa using ht
  · exact absurd (hbefore t hlow) (by simp [missing_test_iff.2 missing])
  · rw [hsame]
  · exact (habove t hhigh).le

theorem firstMissing_of_lowest {s : State} {t : Tag} (missing : MissingSchema s t)
    (lowest : ∀ u, MissingSchema s u → t.code.toNat ≤ u.code.toNat) : firstMissing s = some t := by
  cases hfound : firstMissing s with
  | none =>
    obtain ⟨⟨o, hnamed⟩, hempty⟩ := missing
    exact absurd hempty (firstMissing_eq_none.1 hfound o t hnamed)
  | some u =>
    have hle := firstMissing_code_le hfound missing
    have hge := lowest u (firstMissing_eq_some hfound)
    rw [Tag.code_toNat_injective (Nat.le_antisymm hle hge)]

theorem firstMissing_of_none_missing {s : State} (closed : ∀ t, ¬ MissingSchema s t) : firstMissing s = none :=
  firstMissing_eq_none.2 fun o t hnamed hempty => closed t ⟨⟨o, hnamed⟩, hempty⟩

section Seal
variable {s : State}

theorem exec_sealTable_built (running : s.fault = none) (built : s.phase = .built) :
    exec .sealTable s = raiseFault .tableWriteAfterBuilt s := by
  rw [exec, execSeal, unlessHalted_running running, unlessBuilt_built built]

theorem exec_sealTable_missing {t : Tag} (running : s.fault = none) (uninit : s.phase = .uninit)
    (sound : s.buildFailed = false) (missing : firstMissing s = some t) :
    exec .sealTable s = .next (s.answer (.sealRefused .missingSchema t.code)) := by
  simp [exec, execSeal, unlessHalted_running running, unlessBuilt_uninit uninit, sound, missing]

theorem exec_sealTable_closed (running : s.fault = none) (uninit : s.phase = .uninit)
    (sound : s.buildFailed = false) (closed : firstMissing s = none) :
    exec .sealTable s = .next (State.answer { s with phase := .built } .ok) := by
  simp [exec, execSeal, unlessHalted_running running, unlessBuilt_uninit uninit, sound, closed]

end Seal

/-! ## DISPATCH in a built block (R162, R164) -/

section Dispatch
variable {s : State} {w : Word}

theorem exec_dispatch_unregistered (hinUse : InUse s) (free : s.entryAt (opcodeOf w) = none) :
    exec (.dispatch w) s = .next (s.answer (.unrecognized (opcodeOf w))) :=
  exec_of_gives rfl (.unrecognized w (.inl rfl) hinUse.running hinUse.built free)

theorem exec_dispatch_defined {t : Tag} {schema : Schema} (hinUse : InUse s)
    (taken : s.entryAt (opcodeOf w) = some t) (defined : s.schemaAt t = some schema) :
    exec (.dispatch w) s = .next (s.answer (.decoded t (decodeRecord w schema))) :=
  exec_of_gives rfl (.routed w t schema (.inl rfl) hinUse.running hinUse.built taken defined)

/-- Under the invariant a registered opcode's format has the schema that DISPATCH unpacks with (R26). -/
theorem exec_dispatch_registered {t : Tag} (hs : Inv s) (hinUse : InUse s) (taken : s.entryAt (opcodeOf w) = some t) :
    ∃ schema, s.schemaAt t = some schema ∧
      exec (.dispatch w) s = .next (s.answer (.decoded t (decodeRecord w schema))) := by
  obtain ⟨schema, defined⟩ := Option.ne_none_iff_exists'.1 (hs.table_closed hinUse.built _ t taken)
  exact ⟨schema, defined, exec_dispatch_defined hinUse taken defined⟩

/-- The response can be read off the state that it leaves. -/
theorem next_answer_inj {r r' : Response} : (.next (s.answer r) : Result) = .next (s.answer r') ↔ r = r' := by
  refine ⟨fun h => ?_, fun h => by rw [h]⟩
  have hanswer : Answers s (s.answer r') r := Host.Outcome.next.inj h ▸ (answers_answer_iff rfl).2 rfl
  exact (answers_answer_iff rfl).1 hanswer

/-- DISPATCH answers DECODED with a format only where the word's opcode is registered for that format. -/
theorem entryAt_of_dispatch_decoded {t : Tag} {lanes : Lanes} (hs : Inv s) (hinUse : InUse s)
    (h : exec (.dispatch w) s = .next (s.answer (.decoded t lanes))) : s.entryAt (opcodeOf w) = some t := by
  cases hentry : s.entryAt (opcodeOf w) with
  | none =>
    rw [exec_dispatch_unregistered hinUse hentry, next_answer_inj] at h
    exact nomatch h
  | some u =>
    obtain ⟨schema, -, hexec⟩ := exec_dispatch_registered hs hinUse hentry
    rw [hexec, next_answer_inj] at h
    obtain ⟨rfl, -⟩ := Response.decoded.inj h
    rfl

/-- DISPATCH answers UNRECOGNIZED only where the word's opcode has no entry. -/
theorem entryAt_of_dispatch_unrecognized {o : Opcode} (hs : Inv s) (hinUse : InUse s)
    (h : exec (.dispatch w) s = .next (s.answer (.unrecognized o))) : s.entryAt (opcodeOf w) = none := by
  cases hentry : s.entryAt (opcodeOf w) with
  | none => rfl
  | some u =>
    obtain ⟨schema, -, hexec⟩ := exec_dispatch_registered hs hinUse hentry
    rw [hexec, next_answer_inj] at h
    exact nomatch h

/-- A DISPATCH in a built block raises no fault: it answers and writes nothing. -/
theorem exec_dispatch_answers (hs : Inv s) (hinUse : InUse s) (w : Word) :
    ∃ r, exec (.dispatch w) s = .next (s.answer r) := by
  cases hentry : s.entryAt (opcodeOf w) with
  | none => exact ⟨_, exec_dispatch_unregistered hinUse hentry⟩
  | some t =>
    obtain ⟨schema, -, hexec⟩ := exec_dispatch_registered hs hinUse hentry
    exact ⟨_, hexec⟩

/-- What DISPATCH answers does not depend on what was dispatched before (R164). -/
theorem exec_dispatch_after_dispatch {v : Word} {u : State} (hs : Inv s) (hinUse : InUse s)
    (h : exec (.dispatch v) s = .next u) (r : Response) :
    exec (.dispatch w) s = .next (s.answer r) ↔ exec (.dispatch w) u = .next (u.answer r) := by
  obtain ⟨r₁, hfirst⟩ := exec_dispatch_answers hs hinUse v
  obtain rfl : s.answer r₁ = u := Host.Outcome.next.inj (hfirst.symm.trans h)
  have hkept : KeepsBuiltTable s (s.answer r₁) := exec_keepsBuiltTable hinUse.built hfirst
  obtain ⟨r₂, hbefore, hafter⟩ := hkept.gives_dispatch hs hinUse hinUse.running w
  rw [exec_of_gives rfl hbefore, exec_of_gives rfl hafter, next_answer_inj, next_answer_inj]

end Dispatch

end Sys2Proof.Machine

open Sys2Proof Sys2Proof.Machine

/-- Settles O17: the checks in their order, halted, reserved tag, table built, entry taken; on OK one entry is put and
the others keep what they hold. -/
theorem registerOpcodeByCases : Obligations.RegisterOpcodeByCases := by
  refine ⟨fun _ => rfl, fun s o c => ⟨fun x latched => exec_of_halted latched nofun, ?_, ?_⟩⟩
  · intro running reserved
    exact (unlessHalted_running running _).trans (withTag_reserved reserved s _)
  · rintro t rfl running
    refine ⟨exec_registerOpcode_built running, fun uninit =>
      ⟨fun existing => exec_registerOpcode_taken running uninit, fun free => ?_⟩⟩
    exact ⟨exec_registerOpcode_free running uninit free, by simp [putEntry_entryAt],
      fun p hp => by simp [putEntry_entryAt, hp], rfl, rfl, rfl, rfl, rfl⟩

/-- Settles O18: the checks in their order, halted, table built, failed construction, then the search for a missing
schema, which runs in the order of the tag codes. -/
theorem sealByCases : Obligations.SealByCases := by
  refine ⟨fun _ => rfl, fun s => ⟨fun x latched => exec_of_halted latched nofun, fun running =>
    ⟨exec_sealTable_built running, fun uninit => ⟨execSeal_of_buildFailed running uninit, fun sound => ⟨?_, ?_⟩⟩⟩⟩⟩
  · intro t missing lowest
    exact exec_sealTable_missing running uninit sound (firstMissing_of_lowest missing lowest)
  · intro closed
    exact exec_sealTable_closed running uninit sound (firstMissing_of_none_missing closed)

/-- Settles O19: the checks in their order, halted, table not built, then the opcode's entry, whose format has a schema
by the invariant. -/
theorem dispatchByCases : Obligations.DispatchByCases := by
  refine ⟨fun _ => rfl, fun s w hs => ⟨fun x latched => exec_of_halted latched nofun, fun running =>
    ⟨fun uninit => ?_, fun built => ?_⟩⟩⟩
  · exact exec_of_raises rfl running (.dispatchBeforeBuilt w (.inl rfl) uninit)
  · have hinUse : InUse s := ⟨built, running⟩
    exact ⟨exec_dispatch_unregistered hinUse, fun t => exec_dispatch_registered hs hinUse⟩

/-- Settles O25: a row of the word space routes its word, as DISPATCH does. -/
theorem wordRowsAreDispatches : Obligations.WordRowsAreDispatches := fun _ _ hi => Routes.exec_eq (.inr hi)

/-- Settles O26: each row is the DISPATCH of its word, which answers what the entry and its schema give, whatever the
field list. -/
theorem wordRowsCompleteUnderEverySchemas : Obligations.WordRowsCompleteUnderEverySchemas := by
  intro i w hi s hinUse
  rw [wordRowsAreDispatches i w hi s]
  exact ⟨fun t schema => exec_dispatch_defined hinUse, exec_dispatch_unregistered hinUse⟩

/-- Settles O32: the entry decides the response and can be read back from it; DECODE with the entry's tag finds the
same schema, and a DISPATCH leaves entries and slots as they are. -/
theorem dispatchIsDecodeWithTheTablesTag : Obligations.DispatchIsDecodeWithTheTablesTag := by
  intro s w hs hinUse
  refine ⟨fun t => ⟨exec_dispatch_registered hs hinUse, ?_⟩,
    ⟨exec_dispatch_unregistered hinUse, entryAt_of_dispatch_unrecognized hs hinUse⟩, fun t taken => ?_,
    fun v u r h => exec_dispatch_after_dispatch hs hinUse h r⟩
  · rintro ⟨schema, -, hexec⟩
    exact entryAt_of_dispatch_decoded hs hinUse hexec
  · obtain ⟨schema, defined, hexec⟩ := exec_dispatch_registered hs hinUse taken
    rw [hexec]
    exact (exec_of_gives rfl (.decoded w t schema rfl hinUse.running defined)).symm

/-- Settles O22: no check stands before the answer. -/
theorem readStatusAlwaysAnswers : Obligations.ReadStatusAlwaysAnswers := ⟨fun _ => rfl, fun _ => rfl⟩

end

section
/-! Proofs of 60_exceptions.md. What each class of outcome does to the block (R200), which command raises which cause
(R202), fault entry (R204), and the halted state (R205). -/

namespace Sys2Proof.Machine

/-! ## Outcome classes (R200) -/

section OutcomeClass
variable {i : Instr} {s t : State} {r : Response}

/-- No response given without a write is a FAULT. -/
theorem Gives.outcomeClass_ne_fault (h : Gives i s r) : r.outcomeClass ≠ .fault := by
  cases h <;> nofun

/-- A normal outcome leaves the fault as it was: only FAULT latches one. -/
theorem exec_fault_of_normal (h : exec i s = .next t) (hanswer : Answers s t r) (hr : r.outcomeClass = .normal) :
    t.fault = s.fault := by
  cases exec_effect h with
  | halted | answered | defined | registered | duplicate | sealed => rfl
  | faulted =>
    obtain rfl := (answers_answer_iff rfl).1 hanswer
    exact nomatch hr

/-- A document error writes `build_failed` with DUPLICATE_OPCODE and nothing else. -/
theorem exec_block_of_documentError (h : exec i s = .next t) (hanswer : Answers s t r)
    (hr : r.outcomeClass = .documentError) :
    SameBlock s t ∨
      ((∃ o existing, r = .duplicateOpcode o existing) ∧ SameBlock { s with buildFailed := true } t) := by
  cases exec_effect h with
  | halted | answered => exact .inl (sameBlock_answer s _)
  | duplicate o _ existing =>
    exact .inr ⟨⟨o, existing, (answers_answer_iff rfl).1 hanswer⟩, sameBlock_answer _ _⟩
  | faulted | defined | registered | sealed =>
    obtain rfl := (answers_answer_iff rfl).1 hanswer
    exact nomatch hr

/-- A refused SEAL writes nothing: every write comes with OK, DUPLICATE_OPCODE or FAULT. -/
theorem exec_sameBlock_of_sealRefusal (h : exec i s = .next t) (hanswer : Answers s t r)
    (hr : r.outcomeClass = .sealRefusal) : SameBlock s t := by
  cases exec_effect h with
  | halted | answered => exact sameBlock_answer s _
  | faulted | defined | registered | duplicate | sealed =>
    obtain rfl := (answers_answer_iff rfl).1 hanswer
    exact nomatch hr

/-- FAULT leaves the block halted: the cause it names was latched before or is latched now. -/
theorem exec_halted_of_fault (h : exec i s = .next t) (hanswer : Answers s t r) (hr : r.outcomeClass = .fault) :
    Halted t := by
  cases exec_effect h with
  | halted c latched => simp [Halted, latched]
  | faulted c => simp [Halted]
  | answered r' gives =>
    obtain rfl := (answers_answer_iff rfl).1 hanswer
    exact absurd hr gives.outcomeClass_ne_fault
  | defined | registered | duplicate | sealed =>
    obtain rfl := (answers_answer_iff rfl).1 hanswer
    exact nomatch hr

end OutcomeClass

/-! ## Fault entry (R202, R204) -/

section FaultEntry
variable {i : Instr} {s t : State} {c : FaultCause}

/-- A running block that answers FAULT has raised it, and only latched its cause. -/
theorem exec_eq_latchFault (h : exec i s = .next t) (running : s.fault = none) (hanswer : Answers s t (.fault c)) :
    t = (s.latchFault c).answer (.fault c) := by
  cases exec_effect h with
  | halted x latched => exact nomatch running.symm.trans latched
  | faulted x =>
    obtain rfl := Response.fault.inj ((answers_answer_iff rfl).1 hanswer)
    rfl
  | answered r gives =>
    obtain rfl := (answers_answer_iff rfl).1 hanswer
    exact absurd rfl gives.outcomeClass_ne_fault
  | defined | registered | duplicate | sealed => exact nomatch (answers_answer_iff rfl).1 hanswer

/-- A cause that is latched after an instruction and was not before is one the instruction raises. -/
theorem exec_raises (h : exec i s = .next t) (running : s.fault = none) (latched : t.fault = some c) :
    Raises i s c := by
  cases exec_effect h with
  | faulted x _ raises =>
    obtain rfl := Option.some.inj latched
    exact raises
  | halted | answered | defined | registered | duplicate | sealed => exact nomatch running.symm.trans latched

theorem raises_illegalCommand (h : Raises i s .illegalCommand) : i = .reservedCmd := by
  cases h with
  | illegalCommand hi => exact hi

/-- The four commands with a tag operand. -/
theorem TagOperand.command {x : TagCode} (h : TagOperand i x) :
    (∃ fields, i = .defineFormat x fields) ∨ (∃ o, i = .registerOpcode o x) ∨ (∃ w, i = .decode w x) ∨
      ∃ lanes, i = .encode x lanes := by
  cases h with
  | defineFormat _ fields => exact .inl ⟨fields, rfl⟩
  | registerOpcode o => exact .inr (.inl ⟨o, rfl⟩)
  | decode w => exact .inr (.inr (.inl ⟨w, rfl⟩))
  | encode _ lanes => exact .inr (.inr (.inr ⟨lanes, rfl⟩))

theorem raises_reservedTag (h : Raises i s .reservedTag) :
    ∃ x : TagCode, (x = 6 ∨ x = 7) ∧ TagOperand i x := by
  cases h with
  | reservedTag x reserved hi => exact ⟨x, reserved, hi⟩

theorem raises_dispatchBeforeBuilt (h : Raises i s .dispatchBeforeBuilt) :
    s.phase = .uninit ∧ (i.space = .word ∨ ∃ w, i = .dispatch w) := by
  cases h with
  | dispatchBeforeBuilt w hi uninit => exact ⟨uninit, hi.space_or_dispatch.imp_right fun hi => ⟨w, hi⟩⟩

theorem raises_tableWriteAfterBuilt (h : Raises i s .tableWriteAfterBuilt) :
    s.phase = .built ∧ (i = .sealTable ∨ ∃ o x, i = .registerOpcode o x) := by
  cases h with
  | registerAfterBuilt o x hi built => exact ⟨built, .inr ⟨o, x, hi⟩⟩
  | sealAfterBuilt hi built => exact ⟨built, .inl hi⟩

theorem raises_schemaRedefined (h : Raises i s .schemaRedefined) :
    ∃ u fields, i = .defineFormat u.code fields ∧ s.schemaAt u ≠ none := by
  cases h with
  | schemaRedefined u fields hi taken => exact ⟨u, fields, hi, taken⟩

theorem raises_schemaUndefined (h : Raises i s .schemaUndefined) :
    ∃ u, s.schemaAt u = none ∧ ((∃ w, i = .decode w u.code) ∨ ∃ lanes, i = .encode u.code lanes) := by
  cases h with
  | decodeUndefined w u hi empty => exact ⟨u, empty, .inl ⟨w, hi⟩⟩
  | encodeUndefined u lanes hi empty => exact ⟨u, empty, .inr ⟨lanes, hi⟩⟩

end FaultEntry

/-! ## The halted state (R205) -/

/-- In a halted block a step at a place that is no reset's writes no element. -/
theorem step_sameBlock_of_not_reset {s t : State} (hs : Halted s)
    (hhead : ∀ p later, s.chan.schedule ≠ .reset p :: later) (h : step s = .next t) : SameBlock s t := by
  obtain ⟨-, rfl⟩ | ⟨wanted, x, -, hexec⟩ := step_next_of_not_reset hhead h
  · exact sameBlock_popSlot s
  · have hserving : SameBlock s (s.popSlot.serving x) := (sameBlock_popSlot s).trans (sameBlock_serving _ x)
    exact hserving.trans (exec_sameBlock_of_halted (hserving.halted hs) hexec)

end Sys2Proof.Machine

open Sys2Proof Sys2Proof.Machine

/-- Settles O42: class by class, from the effects an instruction has with a response of that class. -/
theorem outcomeClassesAndTheirEffects : Obligations.OutcomeClassesAndTheirEffects :=
  ⟨fun _ => rfl, fun _ _ _ _ h hanswer => ⟨exec_fault_of_normal h hanswer, exec_block_of_documentError h hanswer,
    exec_sameBlock_of_sealRefusal h hanswer, exec_halted_of_fault h hanswer⟩⟩

/-- Settles O43: in a running block FAULT is answered only where a fault is raised. -/
theorem faultEntryLatchesTheCauseAlone : Obligations.FaultEntryLatchesTheCauseAlone :=
  fun _ _ _ _ => exec_eq_latchFault

/-- Settles O44: a cause that appears was raised, and each cause is raised by its commands under its condition. -/
theorem causesComeFromTheirCommands : Obligations.CausesComeFromTheirCommands := by
  intro i s t c h running latched
  have raises := exec_raises h running latched
  refine ⟨?_, ?_, ?_, ?_, ?_, ?_⟩
  · rintro rfl
    exact raises_illegalCommand raises
  · rintro rfl
    obtain ⟨x, reserved, hi⟩ := raises_reservedTag raises
    exact ⟨x, reserved, hi.command⟩
  · rintro rfl
    exact raises_dispatchBeforeBuilt raises
  · rintro rfl
    exact raises_tableWriteAfterBuilt raises
  · rintro rfl
    exact raises_schemaRedefined raises
  · rintro rfl
    exact raises_schemaUndefined raises

/-- Settles O45: the halted check answers the latched cause, READ_STATUS does not make it, and a step that is no reset
keeps the fault with the rest of the block. -/
theorem haltedBlockAnswersTheLatchedCause : Obligations.HaltedBlockAnswersTheLatchedCause := by
  intro s c latched
  have hs : Halted s := by simp [Halted, latched]
  obtain ⟨-, -, hfaulted⟩ := statusWord_flags s
  refine ⟨fun i => exec_of_halted latched, rfl, by simp [hfaulted, latched], fun t hstep hleft => ?_⟩
  by_contra hnoReset
  have hsame := step_sameBlock_of_not_reset hs (fun p later hschedule => hnoReset ⟨p, later, hschedule⟩) hstep
  exact hleft (hsame.fault.trans latched)

end

section
/-! Proofs of 70_reset_and_hazards.md. What a reset event leaves of the block and of the channel, and that no other step
goes back (R240, R206). -/

namespace Sys2Proof.Machine

/-! ## The reset event (R240) -/

/-- Abandoning a requester's command in progress takes the head of that requester's queue and of no other (log 6). -/
theorem abandon_getElem? (inProgress : Option Nat) (queues : List (List Request)) (q : Nat) :
    (abandon inProgress queues)[q]? =
      if inProgress = some q then (queues[q]?).map List.tail else queues[q]? := by
  cases inProgress with
  | none => simp [abandon]
  | some p =>
    obtain rfl | hp := eq_or_ne p q
    · simp [abandon]
    · simp [abandon, hp]

theorem sameBlock_resetEvent (p : Option Nat) (s : State) : SameBlock State.reset (resetEvent p s) :=
  ⟨rfl, rfl, rfl, rfl, rfl⟩

/-- The step at a reset's place of the schedule is the reset event. -/
theorem step_of_reset {s : State} {p : Option Nat} {later : List Slot} (h : s.chan.schedule = .reset p :: later) :
    step s = .next (resetEvent p s.popSlot) := by
  simp [step, nextEvent, h]

/-! ## What only a reset undoes (R206, R240) -/

/-- A state in which nothing has gone back: the table built stays built, what is latched stays latched, and a filled
slot or entry keeps what it holds. -/
structure NothingGoesBack (s t : State) : Prop where
  built       : s.phase = .built → t.phase = .built
  buildFailed : s.buildFailed = true → t.buildFailed = true
  fault       : ∀ c, s.fault = some c → t.fault = some c
  slots       : ∀ u schema, s.schemaAt u = some schema → t.schemaAt u = some schema
  entries     : ∀ o u, s.entryAt o = some u → t.entryAt o = some u

theorem NothingGoesBack.trans {s t u : State} (hst : NothingGoesBack s t) (htu : NothingGoesBack t u) :
    NothingGoesBack s u where
  built h := htu.built (hst.built h)
  buildFailed h := htu.buildFailed (hst.buildFailed h)
  fault c h := htu.fault c (hst.fault c h)
  slots v schema h := htu.slots v schema (hst.slots v schema h)
  entries o v h := htu.entries o v (hst.entries o v h)

theorem nothingGoesBack_of_sameBlock {s t : State} (h : SameBlock s t) : NothingGoesBack s t := by
  obtain ⟨c, rfl⟩ := h.exists_chan
  exact ⟨id, id, fun _ => id, fun _ _ => id, fun _ _ => id⟩

/-- No instruction goes back: SEAL changes the phase before the table is built, a duplicate sets `build_failed`, a
halted block writes nothing, and a slot or an entry is written only while it is empty (R21, R22, R24, R25, R205). -/
theorem exec_nothingGoesBack {i : Instr} {s t : State} (h : exec i s = .next t) : NothingGoesBack s t where
  built hbuilt := by
    by_contra hne
    obtain ⟨⟨-, uninit, -⟩, -⟩ := exec_phase_changed h (hbuilt.symm ▸ hne)
    exact nomatch hbuilt.symm.trans uninit
  buildFailed hfailed := by
    obtain hsame | ⟨hset, -⟩ := exec_buildFailed h
    · exact hsame.trans hfailed
    · exact hset
  fault c latched := by
    have hs : Halted s := by simp [Halted, latched]
    exact (exec_sameBlock_of_halted hs h).fault.trans latched
  slots u schema filled := by
    by_contra hne
    obtain ⟨empty, -⟩ := exec_schemaAt_changed h (filled.symm ▸ hne)
    exact nomatch filled.symm.trans empty
  entries o u filled := by
    by_contra hne
    obtain ⟨empty, -⟩ := exec_entryAt_changed h (filled.symm ▸ hne)
    exact nomatch filled.symm.trans empty

/-- A step at a place that is no reset's goes back in nothing: it waits, or performs one instruction. -/
theorem step_nothingGoesBack {s t : State} (hhead : ∀ p later, s.chan.schedule ≠ .reset p :: later)
    (h : step s = .next t) : NothingGoesBack s t := by
  obtain ⟨-, rfl⟩ | ⟨wanted, x, -, hexec⟩ := step_next_of_not_reset hhead h
  · exact nothingGoesBack_of_sameBlock (sameBlock_popSlot s)
  · have hserving : SameBlock s (s.popSlot.serving x) := (sameBlock_popSlot s).trans (sameBlock_serving _ x)
    exact (nothingGoesBack_of_sameBlock hserving).trans (exec_nothingGoesBack hexec)

end Sys2Proof.Machine

open Sys2Proof Sys2Proof.Machine

/-- Settles O54: a reset event puts the reset block on the old channel, less the abandoned request, and a step that is
no reset waits or performs one instruction, of which none goes back. -/
theorem resetEventAndNothingElseGoesBack : Obligations.ResetEventAndNothingElseGoesBack := by
  refine ⟨fun s inProgress later hschedule => ?_, fun s t hhead hstep => ?_⟩
  · have hlater : s.popSlot.chan.schedule = later := by simp [hschedule]
    exact ⟨_, step_of_reset hschedule, sameBlock_resetEvent .., hlater, rfl, abandon_getElem? inProgress _⟩
  · obtain ⟨built, buildFailed, fault, slots, entries⟩ := step_nothingGoesBack hhead hstep
    exact ⟨built, buildFailed, fault, slots, entries⟩

end
